-- ==== Sys2Proof/Word.lean ====
section
/-! DEFINITION. Words, bytes, line levels and the two named operand types of the spec
(spec/00_scope.md rules R11, R14; spec/10_state.md rule R20). -/

namespace Sys2Proof

/-- A byte `b[7:0]` (R11, R14). -/
abbrev Byte := BitVec 8

/-- A request word `req[31:0]` (R20, R70). -/
abbrev RequestWord := BitVec 32

/-- The electrical level of the transmit line: `true` is high (1), `false` is low (0) (R20, R21). -/
abbrev Level := Bool

/-- The two motors, "identity in {A, B}" (R14). -/
inductive Motor where
  | a
  | b
  deriving DecidableEq, Repr

/-- The two directions of a motor (R14). -/
inductive Dir where
  | fwd
  | rev
  deriving DecidableEq, Repr

end Sys2Proof
end

