-- ==== Sys2Proof/Syntax.lean ====
section
/-! DEFINITION. The two operations `MCTX` accepts, one constructor per row of
spec/opcode_table.json (spec/00_scope.md rule R2; spec/30_encoding.md rules R71, R72, R75). -/

namespace Sys2Proof

/-- One request, with its operands as the spec decodes them: DATA is eight bits used as they are,
SPEED is "handled as an `Int`" (R75; log 15). -/
inductive Instr where
  /-- `sendByte(value)`: put one byte on the line as one frame (R71, R100). -/
  | sendByte (data : Byte)
  /-- `setMotor(motorSelector, signedSpeed)`: send one motor command as four frames (R72, R130). -/
  | setMotor (motor : Motor) (speed : Int)
  deriving DecidableEq, Repr

end Sys2Proof
end

