-- ==== Sys2Proof/WellFormed.lean ====
section
/-! DEFINITION. Which requests have an encoding (spec/30_encoding.md rules R72, R85):
"An assembler refuses an immediate out of range. It does not wrap it." -/

namespace Sys2Proof

/-- A speed fits the 16-bit SPEED field: "range -32768 to 32767" (R72). -/
def speedInRange (s : Int) : Bool :=
  decide (-32768 ≤ s) && decide (s ≤ 32767)

/-- A request that some request word encodes. Every DATA byte is legal (R84); a speed must be in
the range of its field (R72). -/
def wellFormed (i : Instr) : Bool :=
  match i with
  | .sendByte _ => true
  | .setMotor _ speed => speedInRange speed

end Sys2Proof
end

