-- ==== Sys2Proof/Decode.lean ====
section
/-! DEFINITION. The request word's decoder, its encoder, the opcode table's rows and the assembler
(spec/30_encoding.md rules R70 to R75 and R84 to R87). -/

namespace Sys2Proof

/-- Why a request word is ILLEGAL (R73): every reason by name. -/
inductive DecodeError where
  /-- `OP` is 0b10 or 0b11. -/
  | reservedOp
  /-- A SEND_BYTE word with one of bits 29:8 set. -/
  | reservedSendByteBits
  /-- A SET_MOTOR word with one of bits 29:17 set. -/
  | reservedSetMotorBits
  deriving DecidableEq, Repr

/-- `OP` = `w[31:30]` (R70). -/
def opField (w : RequestWord) : BitVec 2 := w.extractLsb' 30 2

/-- `DATA` = `w[7:0]` (R71). -/
def dataField (w : RequestWord) : Byte := w.extractLsb' 0 8

/-- `M` = `w[16]` (R72). -/
def motorField (w : RequestWord) : BitVec 1 := w.extractLsb' 16 1

/-- `SPEED` = `w[15:0]` (R72). -/
def speedField (w : RequestWord) : BitVec 16 := w.extractLsb' 0 16

/-- `M` selects the motor: 0 gives A and 1 gives B (R75). -/
def motorOfBit (m : BitVec 1) : Motor := if m = 0#1 then .a else .b

/-- The bit that selects a motor (R72). -/
def bitOfMotor (m : Motor) : BitVec 1 :=
  match m with
  | .a => 0#1
  | .b => 1#1

/-- `sext_16`: a 16-bit field read as a two's-complement integer (R12, R72). -/
def sext16 (v : BitVec 16) : Int := v.toInt

/-- The decoder of R74, total on all 2^32 words, which refuses by name (R73). -/
def decode (w : RequestWord) : Except DecodeError Instr :=
  if opField w = 0b00#2 then
    if w.extractLsb' 8 22 = 0#22 then .ok (.sendByte (dataField w))
    else .error .reservedSendByteBits
  else if opField w = 0b01#2 then
    if w.extractLsb' 17 13 = 0#13 then
      .ok (.setMotor (motorOfBit (motorField w)) (sext16 (speedField w)))
    else .error .reservedSetMotorBits
  else .error .reservedOp

/-- The request word of an operation, field by field (R71, R72). -/
def encode (i : Instr) : RequestWord :=
  match i with
  | .sendByte data => 0b00#2 ++ 0#22 ++ data
  | .setMotor motor speed => 0b01#2 ++ 0#13 ++ bitOfMotor motor ++ BitVec.ofInt 16 speed

/-- One row of spec/opcode_table.json: a word is the row's when `w AND mask = match` (R71, R72). -/
structure OpcodeRow where
  mnemonic : String
  mask : RequestWord
  pattern : RequestWord
  deriving DecidableEq, Repr

/-- The row SEND_BYTE (R71). -/
def sendByteRow : OpcodeRow := ⟨"SEND_BYTE", 0xFFFFFF00#32, 0x00000000#32⟩

/-- The row SET_MOTOR (R72). -/
def setMotorRow : OpcodeRow := ⟨"SET_MOTOR", 0xFFFE0000#32, 0x40000000#32⟩

/-- The row an operation is encoded by. -/
def rowOf (i : Instr) : OpcodeRow :=
  match i with
  | .sendByte _ => sendByteRow
  | .setMotor _ _ => setMotorRow

/-- A word belongs to a row (R71, R72). -/
def OpcodeRow.covers (r : OpcodeRow) (w : RequestWord) : Bool :=
  w &&& r.mask == r.pattern

/-- What the decoder reads from an instruction whose bits are `w`, numbered as the opcode table
numbers them: one parallel 32-bit word, bits above `nbits` zero (R70: "Every request word has
length 32 bits"). -/
def decodeTableWord (nbits w : Nat) : Option Instr :=
  let v := w % 2 ^ nbits
  if v < 2 ^ 32 then
    match decode (BitVec.ofNat 32 v) with
    | .ok i => some i
    | .error _ => none
  else none

/-! ### The assembler -/

/-- One line of assembly (R85, R86), its immediates not yet checked. -/
inductive Asm where
  | sendbyte (imm : Int)
  | setmotor (motor : Motor) (imm : Int)
  /-- `.word <imm32>`: a raw request word, legal or not. -/
  | word (imm : Int)
  /-- The pseudo-instruction `stop` (R86, R141). -/
  | stop
  deriving DecidableEq, Repr

/-- The words a line assembles to; `none` for an immediate out of range, which an assembler
"refuses" and "does not wrap" (R85). `stop` is two requests, A before B (R86). -/
def assemble (a : Asm) : Option (List RequestWord) :=
  match a with
  | .sendbyte imm =>
    if 0 ≤ imm ∧ imm ≤ 255 then some [encode (.sendByte (BitVec.ofInt 8 imm))] else none
  | .setmotor motor imm =>
    if speedInRange imm then some [encode (.setMotor motor imm)] else none
  | .word imm =>
    if 0 ≤ imm ∧ imm < 4294967296 then some [BitVec.ofInt 32 imm] else none
  | .stop => some [encode (.setMotor .a 0), encode (.setMotor .b 0)]

/-- The value of a digit character in a base up to 16. -/
def digitValue (base : Nat) (c : Char) : Option Nat :=
  let n := c.toNat
  let v := if 48 ≤ n ∧ n ≤ 57 then n - 48
    else if 97 ≤ n ∧ n ≤ 102 then n - 87
    else if 65 ≤ n ∧ n ≤ 70 then n - 55
    else 16
  if v < base then some v else none

/-- A run of digits read in a base, most significant first, onto an accumulator. -/
def parseDigits (base acc : Nat) (cs : List Char) : Option Nat :=
  match cs with
  | [] => some acc
  | c :: rest =>
    match digitValue base c with
    | some d => parseDigits base (acc * base + d) rest
    | none => none

/-- An unsigned immediate, "decimal or `0x` hex" (R85). -/
def parseUnsigned (cs : List Char) : Option Nat :=
  match cs with
  | '0' :: 'x' :: c :: rest => parseDigits 16 0 (c :: rest)
  | c :: rest => parseDigits 10 0 (c :: rest)
  | [] => none

/-- An immediate with an optional minus sign. -/
def parseImmediate (cs : List Char) : Option Int :=
  match cs with
  | '-' :: rest => (parseUnsigned rest).map fun n => -(Int.ofNat n)
  | _ => (parseUnsigned cs).map Int.ofNat

/-- The text of a line before its comment, which a semicolon opens (log 13). -/
def stripComment (cs : List Char) : List Char :=
  cs.takeWhile fun c => c != ';'

/-- The words of a line, split at spaces; `current` is the word being read, last letter first. -/
def splitWords (current : List Char) (cs : List Char) : List (List Char) :=
  match cs with
  | [] => if current.isEmpty then [] else [current.reverse]
  | c :: rest =>
    if c = ' ' then
      if current.isEmpty then splitWords [] rest else current.reverse :: splitWords [] rest
    else splitWords (c :: current) rest

/-- A line of assembly read by the syntax of R85 and R86 (log 13). -/
def parseLine (line : List Char) : Option Asm :=
  match splitWords [] (stripComment line) with
  | [['s', 't', 'o', 'p']] => some .stop
  | [['s', 'e', 'n', 'd', 'b', 'y', 't', 'e'], imm] => (parseImmediate imm).map .sendbyte
  | [['.', 'w', 'o', 'r', 'd'], imm] => (parseImmediate imm).map .word
  | [['s', 'e', 't', 'm', 'o', 't', 'o', 'r'], ['A', ','], imm] =>
    (parseImmediate imm).map (.setmotor .a)
  | [['s', 'e', 't', 'm', 'o', 't', 'o', 'r'], ['B', ','], imm] =>
    (parseImmediate imm).map (.setmotor .b)
  | _ => none

/-- The words one line of assembly stands for (R85 to R87). -/
def assembleLine (line : String) : Option (List RequestWord) :=
  (parseLine line.toList).bind assemble

end Sys2Proof
end

