-- ==== Sys2Proof/Machine/Frame.lean ====
section
/-! DEFINITION. The serial frame (spec/30_encoding.md rules R76, R77; spec/20_memory.md rule R52). -/

namespace Sys2Proof.Machine

/-- `frame(b)`: the eleven line levels of a byte, slot 0 first (R76). -/
def frame (b : Byte) : Vector Level 11 :=
  #v[false, b.getLsbD 0, b.getLsbD 1, b.getLsbD 2, b.getLsbD 3, b.getLsbD 4, b.getLsbD 5,
    b.getLsbD 6, b.getLsbD 7, true, true]

/-- `frame(b)[k]`: the level of slot `k` (R76). -/
def frameLevel (b : Byte) (k : Fin 11) : Level := (frame b).get k

/-- `F(b) = {0b11, b[7:0], 0b0}`, whose bit `k` is slot `k` (R77). -/
def frameWord (b : Byte) : BitVec 11 := 0b11#2 ++ b ++ 0#1

end Sys2Proof.Machine
end

