-- ==== Sys2Proof/Config.lean ====
section
/-! DEFINITION. The implementation parameters of `MCTX` (spec/00_scope.md rule R9) and the free
values: what the spec leaves open has no body here, so that no proof can see a value of it. -/

namespace Sys2Proof.Config

/-- `BIT_TICKS`: ticks of one bit period (R9, R170). -/
abbrev bitTicks : Nat := 10

/-- `FRAME_SLOTS` = 1 start + 8 data + 2 stop bit periods (R9). -/
abbrev frameSlots : Nat := 11

/-- `START_BYTE`, the first byte of every motor command (R9, R79). -/
abbrev startByte : Byte := 0x80#8

/-- `DEVICE_BYTE`, the control-device byte of every motor command (R9, R79). -/
abbrev deviceByte : Byte := 0x00#8

/-- `SPEED_LIMIT`, the clamp of a speed's magnitude (R9, R134). -/
abbrev speedLimit : Nat := 100

/-- `SCALE_NUM` (R9, R135). -/
abbrev scaleNum : Nat := 255

/-- `SCALE_DEN` (R9, R135). -/
abbrev scaleDen : Nat := 100

/-- `SPEED_MASK`, the seven bits kept of the device speed (R9, R136). -/
abbrev speedMask : Nat := 0x7F

/-- `IDLE_LEVEL`, the line's level outside a frame (R9). -/
abbrev idleLevel : Level := true

/-- The default of the parameter `MOTOR_DIR_BYTE`: bit 0 is the direction, bits 6:1 the motor
(R80, decision D5). A claim that needs it names it. -/
def motorDirByteDefault : Motor → Dir → Byte
  | .a, .fwd => 0x01#8
  | .a, .rev => 0x00#8
  | .b, .fwd => 0x03#8
  | .b, .rev => 0x02#8

/-- What R10 asks of every instance of `MOTOR_DIR_BYTE`: bit 7 is 0 and distinct pairs give
distinct bytes. That it depends on motor and direction alone is its type. -/
def MotorDirValid (f : Motor → Dir → Byte) : Prop :=
  (∀ m d, (f m d).getLsbD 7 = false) ∧
  (∀ m d m' d', f m d = f m' d' → m = m' ∧ d = d')

/-- FREE VALUE (log 3): the instance's seven low bits of the motor/direction byte. -/
opaque motorDirTable : Motor → Dir → BitVec 7

/-- Whether a table of four seven-bit values has no repeat (R10 (b)). -/
def tableDistinct (t : Motor → Dir → BitVec 7) : Bool :=
  [t .a .fwd, t .a .rev, t .b .fwd, t .b .rev].Nodup

/-- The byte function a table stands for: its seven bits below a zero bit 7 where the table has
no repeat, the default of R80 where it has one (log 3). Every valid instance is some table's. -/
def motorDirOfTable (t : Motor → Dir → BitVec 7) (m : Motor) (d : Dir) : Byte :=
  if tableDistinct t then 0#1 ++ t m d else motorDirByteDefault m d

/-- `MOTOR_DIR_BYTE`, the configuration parameter of R10 and R80, open but for R10's three
properties (log 3). -/
def motorDirByte (m : Motor) (d : Dir) : Byte :=
  motorDirOfTable motorDirTable m d

/-- FREE VALUE (log 2): the length, in ticks, of the `n`-th gap drawn between two frames of one
command: "any finite number of ticks, 0 or more" (R9, R103, R104, R197; decision D8). -/
opaque gapLength : Nat → Nat

end Sys2Proof.Config
end

