-- ==== Sys2Proof/Machine/State.lean ====
section
/-! DEFINITION. The state of `MCTX` as plain data (spec/10_state.md rules R20, R23, R31), the one
fault of the spec (spec/60_exceptions.md rules R161, R164), the refusal, and the state after reset. -/

namespace Sys2Proof.Machine

/-- The phase of the sequencer (R23). -/
inductive Phase where
  /-- IDLE: no request in progress. -/
  | idle
  /-- FRAME: a frame is on the line. -/
  | frame
  /-- GAP: between two frames of one command, line high. -/
  | gap
  deriving DecidableEq, Repr, Inhabited

/-- How many bytes of `buf` the request in progress sends: `nbytes` in {0, 1, 4} (R23). -/
inductive ByteCount where
  /-- 0, after reset. -/
  | zero
  /-- 1, for SEND_BYTE. -/
  | one
  /-- 4, for SET_MOTOR. -/
  | four
  deriving DecidableEq, Repr, Inhabited

/-- `buf[0..3]`, the bytes of the request in progress, in send order (R23). -/
structure Buf where
  b0 : Byte
  b1 : Byte
  b2 : Byte
  b3 : Byte
  deriving DecidableEq, Repr, Inhabited

/-- The values the host puts on the input ports for one step (R20; log 1). -/
structure HostInputs where
  rst : Bool
  reqValid : Bool
  req : RequestWord
  deriving DecidableEq, Repr, Inhabited

/-- All the state of the machine: the elements of R23, the refinement's counter of R192, the input
ports of R20 as the next step samples them, and three fields of the model's own. -/
structure State where
  /-- The level now driven on the line, the output latch of R22. -/
  tx : Level
  /-- The sequencer's phase. -/
  phase : Phase
  /-- The bytes of the request in progress. -/
  buf : Buf
  /-- How many of them the request sends. -/
  nbytes : ByteCount
  /-- The index in `buf` of the byte now being sent. -/
  bidx : Fin 4
  /-- The index of the current slot inside its frame. -/
  slot : Fin 11
  /-- STATUS.ILLEGAL, the sticky record of a refused word (R28, R161). -/
  illegal : Bool
  /-- The tick counter of the timed refinement (R192; log 6). -/
  tick : Fin 10
  /-- The input port `rst`. -/
  rst : Bool
  /-- The input port `req_valid`. -/
  reqValid : Bool
  /-- The input port `req`. -/
  req : RequestWord
  /-- MODEL'S OWN: what the host puts on the input ports for the coming steps, next first (log 1). -/
  host : List HostInputs
  /-- MODEL'S OWN: how many more ticks the present gap takes before the next start bit (log 2). -/
  gapLeft : Nat
  /-- MODEL'S OWN: how many free gap lengths have been drawn (log 2). -/
  draws : Nat
  deriving DecidableEq, Repr, Inhabited

/-- The spec's only fault (R164). -/
inductive Fault where
  /-- `IllegalRequest(req)`, raised by the acceptance of a word that decodes to ILLEGAL (R161).
  It records "the whole 32-bit word" and the state the block goes on from: "The hardware goes on
  accepting requests after a refusal" (R162). SAFE: it marks the run as outside every claim, and
  hides no state (log 4). -/
  | illegalRequest (word : RequestWord) (after : State)
  deriving DecidableEq, Repr

/-- Refusals of the model. -/
inductive Refusal where
  /-- An instruction without a meaning, raised by a refused arm of `exec`. No arm is refused, so
  no step raises it. SAFE. -/
  | notModelled (mnemonic : String)
  deriving DecidableEq, Repr

/-- The state right after a reset step with `rst` released and no request offered: R31 and R181
for the elements of R23 and `tick`; log 9 for the ports and the model's own fields. -/
def State.reset : State where
  tx := Config.idleLevel
  phase := .idle
  buf := ⟨0x00#8, 0x00#8, 0x00#8, 0x00#8⟩
  nbytes := .zero
  bidx := 0
  slot := 0
  illegal := false
  tick := 0
  rst := false
  reqValid := false
  req := 0#32
  host := []
  gapLeft := 0
  draws := 0

/-- FREE VALUE (log 7): the state before the first reset. "A model treats every field as a draw,
and the line level as unknown, until the first reset" (R31, R183). -/
opaque State.powerOn : State

end Sys2Proof.Machine
end

