-- ==== Sys2Proof/Machine/Operands.lean ====
section
/-! DEFINITION. The operand forms (spec/41_motor_command.md rules R132 to R136) and the reading of
the command buffer (spec/10_state.md rule R23). -/

namespace Sys2Proof.Machine

/-- The number a byte count stands for (R23). -/
def ByteCount.toNat (n : ByteCount) : Nat :=
  match n with
  | .zero => 0
  | .one => 1
  | .four => 4

/-- `buf[i]` (R23). -/
def Buf.get (b : Buf) (i : Fin 4) : Byte :=
  match i with
  | 0 => b.b0
  | 1 => b.b1
  | 2 => b.b2
  | 3 => b.b3

/-- The byte now being sent, `buf[bidx]`. -/
def currentByte (s : State) : Byte := s.buf.get s.bidx

/-- Polarity (R132): "For motor A the speed is negated before anything else." On exact integers,
so nothing overflows. -/
def polarity (m : Motor) (s : Int) : Int :=
  match m with
  | .a => -s
  | .b => s

/-- Direction (R133): REV when the value is negative, FWD otherwise; zero is FWD. -/
def direction (v : Int) : Dir :=
  if v < 0 then .rev else .fwd

/-- Magnitude and clamp (R134). -/
def magnitude (v : Int) : Nat := min v.natAbs Config.speedLimit

/-- Scaling to the device's range, truncated (R135). -/
def deviceSpeed (mag : Nat) : Nat := mag * Config.scaleNum / Config.scaleDen

/-- The mask to seven bits, which is no saturation (R136, R137). -/
def speedByte (ds : Nat) : Byte := BitVec.ofNat 8 (ds &&& Config.speedMask)

end Sys2Proof.Machine
end

