-- ==== Sys2Proof/Machine/Ops.lean ====
section
/-! DEFINITION. The named updates of the state that the rules share: one for each thing a step
writes, the refusal of a request (the spec's only exception, R161) and the host's move. -/

namespace Sys2Proof.Machine

/-- The reset step's writes: every piece of the block's state to its reset value (R180, R181, R31).
The input ports and the host's coming moves are not the block's to write (log 9); `draws` goes on,
so that no gap length is drawn twice (log 2). -/
def resetBlock (s : State) : State :=
  { s with
    tx := Config.idleLevel
    phase := .idle
    buf := ⟨0x00#8, 0x00#8, 0x00#8, 0x00#8⟩
    nbytes := .zero
    bidx := 0
    slot := 0
    illegal := false
    tick := 0
    gapLeft := 0 }

/-- The writes that accepting either request makes: its bytes, their number, and the start bit of
the first of them (R100, R101, R130). -/
def beginRequest (bytes : Buf) (count : ByteCount) (s : State) : State :=
  { s with buf := bytes, nbytes := count, bidx := 0, slot := 0, phase := .frame, tx := false }

/-- TAKING THE EXCEPTION of a refused request: STATUS.ILLEGAL is set, and "phase stays IDLE; tx,
buf, nbytes, bidx, slot unchanged; nothing goes on the line" (R161). Nothing is saved, no mode
changes and there is no return from it (R167, R168). -/
def refuseRequest (s : State) : State := { s with illegal := true }

/-- Next slot (R102): the line takes the level of the slot that begins. -/
def nextSlot (s : State) : State :=
  { s with slot := s.slot + 1, tx := frameLevel (currentByte s) (s.slot + 1) }

/-- End of the last frame of a request (R103, first branch): back to IDLE, "tx stays 1". -/
def finishRequest (s : State) : State := { s with phase := .idle, bidx := 0, slot := 0 }

/-- The start bit of the request's next byte (R103 (a), R104 (b)). -/
def startNextFrame (s : State) : State :=
  { s with bidx := s.bidx + 1, slot := 0, phase := .frame, tx := false }

/-- A gap begins, with `more` ticks to follow its first one (R103 (b)). -/
def enterGap (more : Nat) (s : State) : State := { s with phase := .gap, gapLeft := more }

/-- The gap goes on for one more tick (R104 (a)): nothing of the block changes. -/
def holdGap (more : Nat) (s : State) : State := { s with gapLeft := more }

/-- One free gap length has been drawn (log 2). -/
def noteDraw (s : State) : State := { s with draws := s.draws + 1 }

/-- One tick inside a slot, in the timed refinement (R192). -/
def countTick (s : State) : State := { s with tick := s.tick + 1 }

/-- The tick counter starts again (R192). -/
def clearTick (s : State) : State := { s with tick := 0 }

/-- The host's move between two steps: the input ports take the next values of `host`. When the
list is empty the host does as R196 asks: it releases `rst`, holds a word that was not taken
(R185) and drops one that was (R186; log 1). -/
def hostMove (consumed : Bool) (s : State) : State :=
  match s.host with
  | p :: rest => { s with rst := p.rst, reqValid := p.reqValid, req := p.req, host := rest }
  | [] => { s with rst := false, reqValid := s.reqValid && !consumed }

end Sys2Proof.Machine
end

