-- ==== Sys2Proof/Machine/SendByte.lean ====
section
/-! DEFINITION. The meaning of SEND_BYTE (spec/40_serial_transmitter.md rule R100). -/

namespace Sys2Proof.Machine

/-- SEND_BYTE: "send one byte as one frame" (R100). Only `buf[0]` is written of the buffer. What the
acceptance step does; the step calls it in IDLE alone (R101; log 16). -/
def execSendByte (data : Byte) (s : State) : Host.Outcome State Fault Refusal :=
  .next (beginRequest { s.buf with b0 := data } .one s)

end Sys2Proof.Machine
end

