-- ==== Sys2Proof/Machine/Command.lean ====
section
/-! DEFINITION. The command function (spec/41_motor_command.md rule R131). -/

namespace Sys2Proof.Machine

/-- `cmd(m, s)` for a given instance of the parameter `MOTOR_DIR_BYTE` (R131, R10). -/
def commandWith (motorDir : Motor → Dir → Byte) (m : Motor) (s : Int) : Buf :=
  let v := polarity m s
  { b0 := Config.startByte
    b1 := Config.deviceByte
    b2 := motorDir m (direction v)
    b3 := speedByte (deviceSpeed (magnitude v)) }

/-- `cmd(m, s)` of this machine, whose `MOTOR_DIR_BYTE` is the open parameter of R10. -/
def command (m : Motor) (s : Int) : Buf := commandWith Config.motorDirByte m s

end Sys2Proof.Machine
end

