-- ==== Sys2Proof/Machine/SetMotor.lean ====
section
/-! DEFINITION. The meaning of SET_MOTOR (spec/41_motor_command.md rule R130). -/

namespace Sys2Proof.Machine

/-- SET_MOTOR: "compute one motor command and send it as four frames" (R130). The four bytes are
computed once, here, and held in `buf` (R143). What the acceptance step does; the step calls it in
IDLE alone (R101; log 16). -/
def execSetMotor (motor : Motor) (speed : Int) (s : State) : Host.Outcome State Fault Refusal :=
  .next (beginRequest (command motor speed) .four s)

end Sys2Proof.Machine
end

