-- ==== Sys2Proof/Machine/Dispatch.lean ====
section
/-! DEFINITION. Which meaning each instruction has. -/

namespace Sys2Proof.Machine

-- The effect of accepting a request (R101).
def exec (i : Instr) (s : State) : Host.Outcome State Fault Refusal :=
  match i with
  | .sendByte data => Sys2Proof.Machine.execSendByte data s
  | .setMotor motor speed => Sys2Proof.Machine.execSetMotor motor speed s

end Sys2Proof.Machine
end

