-- ==== Sys2Proof/Machine/Flags.lean ====
section
/-! DEFINITION. What the host can read: `req_ready` and the STATUS register
(spec/10_state.md rules R27, R28), and the conditions of a step the spec names. -/

namespace Sys2Proof.Machine

/-- `req_ready`: 1 exactly when `phase = IDLE` and `rst = 0`, "a combinational function of the
state, not a stored bit" (R27). -/
def reqReady (s : State) : Bool := decide (s.phase = .idle) && !s.rst

/-- STATUS.BUSY: 1 while `phase` is FRAME or GAP (R28). -/
def busy (s : State) : Bool := decide (s.phase ≠ .idle)

/-- The STATUS register: bit 0 BUSY, bit 1 ILLEGAL, bits 7:2 hardwired 0 (R28). -/
def status (s : State) : BitVec 8 :=
  0#6 ++ BitVec.ofBool s.illegal ++ BitVec.ofBool (busy s)

/-- The word on `req` is consumed by the next step: it is offered and `MCTX` is ready for it
(R101, R106; R161 for a refused word). -/
def consumes (s : State) : Bool := s.reqValid && reqReady s

end Sys2Proof.Machine
end

