-- ==== Sys2Proof/Machine/Sequencer.lean ====
section
/-! DEFINITION. The steps of the sequencer, one function per rule of
spec/40_serial_transmitter.md (R101 to R105; R107 asks for one each), and their order in one step
(spec/60_exceptions.md rule R166). The free choice of R103 is the argument `gap`. -/

namespace Sys2Proof.Machine

/-- The host moves after an outcome whose word was consumed (R101, R186). -/
def afterAccept (o : Host.Outcome State Fault Refusal) : Host.Outcome State Fault Refusal :=
  match o with
  | .next t => .next (hostMove true t)
  | .fault f => .fault f
  | .refused r => .refused r

/-- Acceptance (R101): the word on `req` is decoded once, here (R63), and consumed. A legal word
begins its request; an ILLEGAL one is refused as R161 says, and the fault carries the whole word
and the state the block goes on from (R162; log 4). -/
def acceptStep (s : State) : Host.Outcome State Fault Refusal :=
  match decode s.req with
  | .ok i => afterAccept (exec i s)
  | .error _ => .fault (.illegalRequest s.req (hostMove true (refuseRequest s)))

/-- End of frame (R103). In the `else` branch the choice between (a) and (b) is free: a gap of 0
ticks is (a), a longer one is (b). -/
def endFrame (gap : Nat) (s : State) : State :=
  if s.bidx.val + 1 = s.nbytes.toNat then finishRequest s
  else
    match gap with
    | 0 => startNextFrame (noteDraw s)
    | more + 1 => enterGap more (noteDraw s)

/-- The step of phase FRAME: R102 before slot 10, R103 at slot 10. -/
def frameStep (gap : Nat) (s : State) : State :=
  if s.slot.val < 10 then nextSlot s else endFrame gap s

/-- The step of phase GAP (R104): (a) while ticks of the gap are left, then (b). -/
def gapStep (s : State) : State :=
  match s.gapLeft with
  | more + 1 => holdGap more s
  | 0 => startNextFrame s

/-- Idle (R105): "changes nothing". -/
def idleStep (s : State) : State := s

/-- One step, with the gap length to use if a gap is chosen in it. The order is that of R166:
reset, the sequencer, acceptance, idle. A word offered while busy is held (R106). -/
def slotStep (gap : Nat) (s : State) : Host.Outcome State Fault Refusal :=
  if s.rst then .next (hostMove false (resetBlock s))
  else
    match s.phase with
    | .frame => .next (hostMove false (frameStep gap s))
    | .gap => .next (hostMove false (gapStep s))
    | .idle => if s.reqValid then acceptStep s else .next (hostMove false (idleStep s))

/-- `s` with a request word offered, in the phase that accepts one, and `rst` released: what it
takes for the very next step to accept that word (R101, R27; log 5). -/
def offerWord (w : RequestWord) (s : State) : State :=
  { s with phase := .idle, rst := false, reqValid := true, req := w }

end Sys2Proof.Machine
end

