-- ==== Sys2Proof/Machine/Step.lean ====
section
/-! DEFINITION. The machine's step (spec/40_serial_transmitter.md rule R99), at the level of bit
slots (spec/00_scope.md rule R19), and how a request word is placed for it. -/

namespace Sys2Proof.Machine

/-- One step of `MCTX` (R99, R107). The length of a gap, which the spec leaves free, is the free
value of Config at the number of gaps drawn so far (log 2). -/
def step (s : State) : Host.Outcome State Fault Refusal :=
  slotStep (Config.gapLength s.draws) s

/-- `s` with the request word of bits `w` offered to its next step: `MCTX` fetches nothing (R25),
so a word comes in on the request port (log 5). -/
def State.withFetchWord (s : State) (nbits w : Nat) : State :=
  offerWord (BitVec.ofNat 32 (w % 2 ^ nbits)) s

end Sys2Proof.Machine
end

