-- ==== Sys2Proof/Machine/Relation.lean ====
section
/-! DEFINITION. The step relation of spec/40_serial_transmitter.md rule R107, over exactly the
elements of spec/10_state.md rule R23, each rule written from its own words and apart from the step
function: it "takes either branch where a choice is given". -/

namespace Sys2Proof.Machine

/-- The internal state of `MCTX`, "exactly these elements" (R23). -/
structure Block where
  tx : Level
  phase : Phase
  buf : Buf
  nbytes : ByteCount
  bidx : Fin 4
  slot : Fin 11
  illegal : Bool
  deriving DecidableEq, Repr

/-- The block inside a state. -/
def State.block (s : State) : Block where
  tx := s.tx
  phase := s.phase
  buf := s.buf
  nbytes := s.nbytes
  bidx := s.bidx
  slot := s.slot
  illegal := s.illegal

/-- The block's state after reset (R31, R181). -/
def Block.reset : Block where
  tx := true
  phase := .idle
  buf := ⟨0, 0, 0, 0⟩
  nbytes := .zero
  bidx := 0
  slot := 0
  illegal := false

/-- The step relation: `BlockStep rst reqValid req x y` holds when `y` may follow `x` with those
values on the input ports (R107, R166). -/
inductive BlockStep : Bool → Bool → RequestWord → Block → Block → Prop where
  /-- R180: the reset step applies in every phase. -/
  | reset {v w x} : BlockStep true v w x Block.reset
  /-- R101, R100. -/
  | acceptSendByte {w x d} : x.phase = .idle → decode w = .ok (.sendByte d) →
      BlockStep false true w x
        { x with buf := { x.buf with b0 := d }, nbytes := .one, bidx := 0, slot := 0,
                 phase := .frame, tx := false }
  /-- R101, R130. -/
  | acceptSetMotor {w x m v} : x.phase = .idle → decode w = .ok (.setMotor m v) →
      BlockStep false true w x
        { x with buf := command m v, nbytes := .four, bidx := 0, slot := 0,
                 phase := .frame, tx := false }
  /-- R101, R161. -/
  | refuse {w x e} : x.phase = .idle → decode w = .error e →
      BlockStep false true w x { x with illegal := true }
  /-- R102, for a data slot: slot `k + 1` in 1..8 carries bit `k`. -/
  | dataSlot {v w x} (k : Fin 8) (next : Fin 11) : x.phase = .frame → x.slot.val = k.val →
      next.val = k.val + 1 →
      BlockStep false v w x { x with slot := next, tx := (x.buf.get x.bidx).getLsbD k.val }
  /-- R102, for a stop slot: slots 9 and 10 are high. -/
  | stopSlot {v w x} (next : Fin 11) : x.phase = .frame → x.slot.val = 8 ∨ x.slot.val = 9 →
      next.val = x.slot.val + 1 →
      BlockStep false v w x { x with slot := next, tx := true }
  /-- R103, the last byte of the request. -/
  | lastFrame {v w x} : x.phase = .frame → x.slot = 10 → x.bidx.val + 1 = x.nbytes.toNat →
      BlockStep false v w x { x with phase := .idle, bidx := 0, slot := 0 }
  /-- R103 (a): the next start bit at once. -/
  | nextFrame {v w x} : x.phase = .frame → x.slot = 10 → x.bidx.val + 1 ≠ x.nbytes.toNat →
      BlockStep false v w x { x with bidx := x.bidx + 1, slot := 0, tx := false }
  /-- R103 (b): a gap begins. -/
  | gapBegins {v w x} : x.phase = .frame → x.slot = 10 → x.bidx.val + 1 ≠ x.nbytes.toNat →
      BlockStep false v w x { x with phase := .gap }
  /-- R104 (a). -/
  | gapGoesOn {v w x} : x.phase = .gap → BlockStep false v w x x
  /-- R104 (b). -/
  | gapEnds {v w x} : x.phase = .gap →
      BlockStep false v w x
        { x with bidx := x.bidx + 1, slot := 0, phase := .frame, tx := false }
  /-- R105. -/
  | idle {w x} : x.phase = .idle → BlockStep false false w x x

end Sys2Proof.Machine
end

