-- ==== Sys2Proof/Machine/Trace.lean ====
section
/-! DEFINITION. What is observed of a run: the line trace of spec/40_serial_transmitter.md rule
R108, the accepted words, and the end of a run (spec/70_reset_and_hazards.md rules R194, R195). -/

namespace Sys2Proof.Machine

/-- The state the hardware goes on from after an outcome. After a refused request it goes on from
the state the fault carries: the fault "does not stop the block" (R162; log 4). `s` itself after a
refusal, which no step gives. -/
def stateAfter (s : State) (o : Host.Outcome State Fault Refusal) : State :=
  match o with
  | .next t => t
  | .fault (.illegalRequest _ t) => t
  | .refused _ => s

/-- The block's next state, whatever the outcome (R162). -/
def advance (s : State) : State := stateAfter s (step s)

/-- The block's state after `n` steps. -/
def advanceN (n : Nat) (s : State) : State :=
  match n with
  | 0 => s
  | k + 1 => advanceN k (advance s)

/-- The interval of line time that follows a step (R99, R108). -/
inductive Interval where
  /-- `Slot(level)`: one bit period of a frame. -/
  | slot (level : Level)
  /-- `Mark`: one tick of gap or idle, the line at 1. -/
  | mark
  deriving DecidableEq, Repr

/-- The interval that follows the step which left `s`: `Slot(tx)` in phase FRAME, `Mark`
otherwise (R108). -/
def interval (s : State) : Interval :=
  match s.phase with
  | .frame => .slot s.tx
  | .gap => .mark
  | .idle => .mark

/-- The line trace of `n` steps from `s`: every step appends one interval (R108). -/
def trace (n : Nat) (s : State) : List Interval :=
  match n with
  | 0 => []
  | k + 1 => interval (advance s) :: trace k (advance s)

/-- The data content of a trace: its `Slot` intervals (R108). -/
def slotLevels (t : List Interval) : List Level :=
  t.filterMap fun i =>
    match i with
    | .slot level => some level
    | .mark => none

/-- The trace of one frame. -/
def frameTrace (b : Byte) : List Interval := (frame b).toList.map .slot

/-- The word the next step accepts, in the sense in which R194 and R195 observe accepted words. A
legal word that the step consumes is one (R101). DESIGN CHOICE (log 18): an ILLEGAL word is not,
although it is consumed. The spec leaves this open: R101, R161 and R164 call its step an acceptance,
R73 and R161 call it refused, and of program P4 only the step that takes the legal word "accepts". -/
def acceptedWord (s : State) : Option RequestWord :=
  if consumes s then
    match decode s.req with
    | .ok _ => some s.req
    | .error _ => none
  else none

/-- The words accepted in `n` steps from `s`, in order (R194); refused words are not among them, by
the model's choice (log 18). -/
def acceptedWords (n : Nat) (s : State) : List RequestWord :=
  match n with
  | 0 => []
  | k + 1 => (acceptedWord s).toList ++ acceptedWords k (advance s)

/-- After `n` steps from `s` all the words of the list have been accepted and the block is IDLE. -/
def hasEnded (words : List RequestWord) (n : Nat) (s : State) : Prop :=
  acceptedWords n s = words ∧ (advanceN n s).phase = .idle

/-- A run for a list of requests has ended at its `n`-th state: "the first state where all `n` words
have been accepted and `phase = IDLE`" (R195). A list with an ILLEGAL word never ends so, by the
model's choice (log 18); R195 itself says nothing of a run with STATUS.ILLEGAL set. -/
def endsAt (words : List RequestWord) (n : Nat) (s : State) : Prop :=
  hasEnded words n s ∧ ∀ k, k < n → ¬ hasEnded words k s

end Sys2Proof.Machine
end

