-- ==== Sys2Proof/Machine/Timed.lean ====
section
/-! DEFINITION. The timed refinement (spec/70_reset_and_hazards.md rule R192): one step per rising
edge of `clk`; and the durations of spec/40_serial_transmitter.md rule R99, over the open
parameter `TICK`. -/

namespace Sys2Proof.Machine

/-- The outcome of a slot-model step that sets the tick counter to 0 (R192). "The acceptance step
sets `tick <- 0`", and R161 calls the step of a refused word an acceptance step, so the counter is
0 in the state its fault carries too (log 6). -/
def clearTickAfter (o : Host.Outcome State Fault Refusal) : Host.Outcome State Fault Refusal :=
  match o with
  | .next t => .next (clearTick t)
  | .fault (.illegalRequest w t) => .fault (.illegalRequest w (clearTick t))
  | .refused r => .refused r

/-- One rising edge of `clk` (R192). In phase FRAME it counts, and takes the slot-model step only
at `tick = BIT_TICKS - 1`; in the other phases "every clock edge is one slot-model step". The input
ports are sampled at every edge (log 14). -/
def clkStep (s : State) : Host.Outcome State Fault Refusal :=
  if s.rst then step s
  else
    match s.phase with
    | .frame =>
      if s.tick.val < 9 then .next (hostMove false (countTick s)) else clearTickAfter (step s)
    | .gap => step s
    | .idle => if s.reqValid then clearTickAfter (step s) else step s

/-- The block's next state at a rising edge, whatever the outcome. -/
def clkAdvance (s : State) : State := stateAfter s (clkStep s)

/-- The block's state after `n` rising edges. -/
def clkAdvanceN (n : Nat) (s : State) : State :=
  match n with
  | 0 => s
  | k + 1 => clkAdvanceN k (clkAdvance s)

/-- The line's level in each of the `n` ticks that follow the next `n` rising edges. -/
def clkLevels (n : Nat) (s : State) : List Level :=
  match n with
  | 0 => []
  | k + 1 => (clkAdvance s).tx :: clkLevels k (clkAdvance s)

/-- How many ticks an interval lasts: a bit period for a slot, one tick for a mark (R99, R9). -/
def intervalTicks (i : Interval) : Nat :=
  match i with
  | .slot _ => Config.bitTicks
  | .mark => 1

/-- How many ticks a trace lasts (R99, R191). -/
def traceTicks (t : List Interval) : Nat := (t.map intervalTicks).sum

/-- The duration of a trace for a given length of `TICK`, in that length's unit: "A model with time
keeps `TICK` as an argument" (R193; log 10). -/
def traceDuration (tickLength : Nat) (t : List Interval) : Nat := traceTicks t * tickLength

end Sys2Proof.Machine
end

