-- ==== Sys2Proof/Safety.lean ====
section
/-! DEFINITION. What counts as a good state and a good run, in the terms of the claims: the state
invariants of spec/10_state.md rule R26, the launch premise of spec/70_reset_and_hazards.md rule
R184, and the host's behaviour. -/

namespace Sys2Proof.Machine

/-- The state invariants of R26, one clause each. -/
structure StateInv (s : State) : Prop where
  idle_mark : s.phase = .idle → s.tx = true
  gap_form : s.phase = .gap →
    s.tx = true ∧ s.slot = 10 ∧ s.nbytes = .four ∧ s.bidx.val < 3
  frame_form : s.phase = .frame →
    (s.nbytes = .one ∨ s.nbytes = .four) ∧ s.bidx.val < s.nbytes.toNat ∧
      s.tx = frameLevel (s.buf.get s.bidx) s.slot
  one_byte : s.nbytes = .one → s.bidx = 0
  command_form : s.nbytes = .four → s.phase ≠ .idle →
    s.buf.b0 = 0x80#8 ∧ s.buf.b1 = 0x00#8 ∧ s.buf.b3.getLsbD 7 = false

/-- The invariant of the timed refinement: the counter runs inside a frame's slots only (R192). -/
def TickInv (s : State) : Prop := s.phase ≠ .frame → s.tick = 0

/-- The launch premise of R184: "a reset step has been taken and no step since had `rst = 1`". -/
inductive Launched : State → Prop where
  | reset {p : State} : p.rst = true → Launched (advance p)
  | step {p : State} : Launched p → p.rst = false → Launched (advance p)

/-- The machine as it powers up, every field a draw, with `rst` asserted by the platform: the start
of the boot order of R184 (R183; log 7). -/
def powerUpInReset : State := { State.powerOn with rst := true }

/-- `rst` is 0 now and the host asserts it in none of its coming moves. -/
def NoReset (s : State) : Prop :=
  s.rst = false ∧ ∀ p ∈ s.host, p.rst = false

/-- Every word offered, now or in the host's coming moves, is a legal request (R73). -/
def LegalWords (s : State) : Prop :=
  (s.reqValid = true → ∃ i, decode s.req = .ok i) ∧
  ∀ p ∈ s.host, p.reqValid = true → ∃ i, decode p.req = .ok i

/-- The hold duty of R185 and R196 for the host's next move: a word offered and not taken by the
next step stays offered, unchanged (log 12). -/
def HoldsOffer (s : State) : Prop :=
  s.reqValid = true → consumes s = false →
    (advance s).reqValid = true ∧ (advance s).req = s.req

/-- What a request word asks for, without its operands. -/
inductive RequestKind where
  | sendByte
  | setMotor
  | illegal
  deriving DecidableEq, Repr

/-- The kind of a request word (R74). -/
def requestKind (w : RequestWord) : RequestKind :=
  match decode w with
  | .ok (.sendByte _) => .sendByte
  | .ok (.setMotor _ _) => .setMotor
  | .error _ => .illegal

/-- Two values of the input ports that agree on everything but data: on `rst`, on `req_valid`, and
on the kind of the word where one is offered. -/
def SamePortsButData (p q : HostInputs) : Prop :=
  p.rst = q.rst ∧ p.reqValid = q.reqValid ∧
    (p.reqValid = true → requestKind p.req = requestKind q.req)

/-- The values on the input ports now. -/
def State.ports (s : State) : HostInputs := ⟨s.rst, s.reqValid, s.req⟩

/-- Two states that agree on everything but data: the command buffer, the line's level, and the
operands of every word offered, on `req` now or in one of the host's coming moves. What the host
can read on `status` and `req_ready` (R24, R30) and what orders the steps (R25) is the same in
both. -/
def SameButData (s t : State) : Prop :=
  { s with tx := t.tx, buf := t.buf, req := t.req, host := t.host } = t ∧
  SamePortsButData s.ports t.ports ∧
  List.Forall₂ SamePortsButData s.host t.host

end Sys2Proof.Machine
end

