-- ==== Sys2Proof/Certificates/Slice0/Obligations.lean ====
section
/-! DEFINITION. The statements for the provers, in the order of spec/: encodings, the frame, the
command, reset, acceptance, the sequencer, what the host reads, the whole machine, the line. -/

open Sys2Proof Sys2Proof.Machine

/-! ### Encodings (spec/30_encoding.md) -/

/-- Every well-formed request is decoded from its own word, whatever its operands (R71, R72, R74). -/
def Obligations.DecodeEncodeRoundTrip : Prop :=
  ∀ i : Instr, wellFormed i = true → decode (encode i) = .ok i

/-- Every word the decoder accepts is the encoding of a well-formed request, the one it decodes
to: each request has exactly one word (R74, R75). -/
def Obligations.DecodedWordIsEncoding : Prop :=
  ∀ (w : RequestWord) (i : Instr), decode w = .ok i → wellFormed i = true ∧ encode i = w

/-- R74: the decoder on all 2^32 words, its fields read off the word as a number, and how many words
decode to each operation. -/
def Obligations.DecoderOfAllWords : Prop :=
  (∀ w : RequestWord,
    if w.toNat / 2 ^ 30 = 0 ∧ w.toNat / 2 ^ 8 % 2 ^ 22 = 0 then
      decode w = .ok (.sendByte (BitVec.ofNat 8 (w.toNat % 256)))
    else if w.toNat / 2 ^ 30 = 1 ∧ w.toNat / 2 ^ 17 % 2 ^ 13 = 0 then
      decode w = .ok (.setMotor (if w.toNat / 2 ^ 16 % 2 = 0 then .a else .b)
        (if w.toNat % 65536 < 32768 then (w.toNat % 65536 : Int)
         else (w.toNat % 65536 : Int) - 65536))
    else ∃ e, decode w = .error e) ∧
  {w : RequestWord | ∃ d, decode w = .ok (.sendByte d)}.ncard = 2 ^ 8 ∧
  {w : RequestWord | ∃ m v, decode w = .ok (.setMotor m v)}.ncard = 2 ^ 17

/-- R71: a word is SEND_BYTE exactly when its bits under the mask are the match, that is when OP is
0b00 and bits 29:8 are 0, and its DATA is its low byte. -/
def Obligations.SendByteWordFormat : Prop :=
  ∀ w : RequestWord,
    (w &&& 0xFFFFFF00#32 = 0x00000000#32 ↔
      w.extractLsb 31 30 = 0b00#2 ∧ w.extractLsb 29 8 = 0#22) ∧
    (w &&& 0xFFFFFF00#32 = 0x00000000#32 ↔
      decode w = .ok (.sendByte (w.extractLsb 7 0)))

/-- R72: a word is SET_MOTOR exactly when its bits under the mask are the match, that is when OP is
0b01 and bits 29:17 are 0; bit 16 selects the motor and bits 15:0 are the signed speed. -/
def Obligations.SetMotorWordFormat : Prop :=
  ∀ w : RequestWord,
    (w &&& 0xFFFE0000#32 = 0x40000000#32 ↔
      w.extractLsb 31 30 = 0b01#2 ∧ w.extractLsb 29 17 = 0#13) ∧
    (w &&& 0xFFFE0000#32 = 0x40000000#32 ↔
      decode w = .ok (.setMotor (if w.getLsbD 16 then .b else .a) (w.extractLsb 15 0).toInt)) ∧
    -32768 ≤ (w.extractLsb 15 0).toInt ∧ (w.extractLsb 15 0).toInt ≤ 32767

/-- R73, R84: the illegal words, each refused under its own name (the names are the model's). -/
def Obligations.IllegalWordsByName : Prop :=
  ∀ w : RequestWord,
    (decode w = .error .reservedOp ↔ w.getLsbD 31 = true) ∧
    (decode w = .error .reservedSendByteBits ↔
      w.extractLsb 31 30 = 0b00#2 ∧ w.extractLsb 29 8 ≠ 0#22) ∧
    (decode w = .error .reservedSetMotorBits ↔
      w.extractLsb 31 30 = 0b01#2 ∧ w.extractLsb 29 17 ≠ 0#13)

/-- R85: the words the assembler makes, for every immediate, and its refusal of one out of range.
The directive `.word` makes the word of its immediate, legal or not. -/
def Obligations.AssemblerRefusesOutOfRange : Prop :=
  ∀ imm : Int,
    assemble (.sendbyte imm) =
      (if 0 ≤ imm ∧ imm ≤ 255 then some [0x00000000#32 ||| BitVec.ofInt 32 imm] else none) ∧
    assemble (.setmotor .a imm) =
      (if -32768 ≤ imm ∧ imm ≤ 32767 then
        some [0x40000000#32 ||| (BitVec.ofInt 32 imm &&& 0xFFFF#32)] else none) ∧
    assemble (.setmotor .b imm) =
      (if -32768 ≤ imm ∧ imm ≤ 32767 then
        some [0x40010000#32 ||| (BitVec.ofInt 32 imm &&& 0xFFFF#32)] else none) ∧
    (0 ≤ imm → imm < 2 ^ 32 →
      ∃ w : RequestWord, assemble (.word imm) = some [w] ∧ (w.toNat : Int) = imm) ∧
    (imm < 0 ∨ 2 ^ 32 ≤ imm → assemble (.word imm) = none)

/-- R86: `stop` expands to two requests, motor A's before motor B's. -/
def Obligations.StopIsTwoZeroCommands : Prop :=
  assembleLine "stop" = some [0x40000000#32, 0x40010000#32] ∧
  decode 0x40000000#32 = .ok (.setMotor .a 0) ∧
  decode 0x40010000#32 = .ok (.setMotor .b 0)

/-- Words written out bit by bit from R71, R72 and R87 decode to what they stand for. -/
def Obligations.EncodedWordsDecode : Prop :=
  decode 0x00000080#32 = .ok (.sendByte 0x80#8) ∧
  decode 0x40010064#32 = .ok (.setMotor .b 100) ∧
  decode 0x4000FF9C#32 = .ok (.setMotor .a (-100)) ∧
  decode 0x40018000#32 = .ok (.setMotor .b (-32768)) ∧
  decode 0x40020000#32 = .error .reservedSetMotorBits

/-! ### The frame (spec/30_encoding.md section 2, spec/20_memory.md) -/

/-- R52: data slot `k` (1 to 8) carries bit `k - 1`; the start bit is low and the stop bits high
(R76); slot `k` is bit `k` of the 11-bit word `0x600 OR (b << 1)` (R77). -/
def Obligations.FrameSlotsLeastSignificantFirst : Prop :=
  ∀ (b : Byte) (k : Fin 11),
    (1 ≤ k.val → k.val ≤ 8 → frameLevel b k = b.getLsbD (k.val - 1)) ∧
    (k.val = 0 → frameLevel b k = false) ∧
    (9 ≤ k.val → frameLevel b k = true) ∧
    frameLevel b k = (0x600#11 ||| (b.setWidth 11 <<< 1)).getLsbD k.val

/-! ### The motor command (spec/41_motor_command.md) -/

/-- R131 to R136: the four bytes of the command, for every motor, every speed and every instance of
the parameter, from the rules' own arithmetic on integers. -/
def Obligations.MotorCommandArithmetic : Prop :=
  ∀ (f : Motor → Dir → Byte) (m : Motor) (s v mag ds : Int),
    v = (if m = .a then -s else s) → mag = min |v| 100 → ds = mag * 255 / 100 →
      0 ≤ mag ∧ mag ≤ 100 ∧ 0 ≤ ds ∧ ds ≤ 255 ∧
      (commandWith f m s).b0 = 0x80#8 ∧
      (commandWith f m s).b1 = 0x00#8 ∧
      (commandWith f m s).b2 = f m (if v < 0 then .rev else .fwd) ∧
      (commandWith f m s).b3.toNat = ds.toNat &&& 0x7F ∧
      ((commandWith f m s).b3.toNat : Int) = ds % 128 ∧
      ((commandWith f m s).b3.toNat : Int) = ds - 128 * (ds / 128)

/-- R137: the speed byte is the device speed up to magnitude 50 and the device speed less 128 from
51 on, so that it falls from 0x7F to 0x02 between them; it does not saturate. -/
def Obligations.SpeedByteWrapsAboveHalf : Prop :=
  ∀ s : Int,
    (|s| ≤ 50 → ((command .b s).b3.toNat : Int) = |s| * 255 / 100) ∧
    (51 ≤ |s| → |s| ≤ 100 → ((command .b s).b3.toNat : Int) = |s| * 255 / 100 - 128) ∧
    (|s| = 50 → (command .b s).b3 = 0x7F#8) ∧
    (|s| = 51 → (command .b s).b3 = 0x02#8)

/-- R139: the same speed on both motors gives the same speed byte and opposite directions, except at
speed 0, where both are FWD. -/
def Obligations.MotorsMirrorEachOther : Prop :=
  ∀ s : Int,
    (command .a s).b3 = (command .b s).b3 ∧
    ∃ da db : Dir,
      (command .a s).b2 = Config.motorDirByte .a da ∧
      (command .b s).b2 = Config.motorDirByte .b db ∧
      (s ≠ 0 → da ≠ db) ∧ (s = 0 → da = .fwd ∧ db = .fwd)

/-- R140: the ranges of the command's bytes, for every motor and speed. -/
def Obligations.CommandByteRanges : Prop :=
  ∀ (m : Motor) (s : Int),
    (command m s).b0 = 0x80#8 ∧ (command m s).b1 = 0x00#8 ∧
    (command m s).b3.toNat ≤ 127 ∧
    (100 ≤ |s| → (command m s).b3 = 0x7F#8) ∧
    (command m s).b2.getLsbD 7 = false ∧
    (∃ d, (command m s).b2 = Config.motorDirByte m d)

/-- R82: the start byte is the only byte of a command with bit 7 set. -/
def Obligations.OnlyStartByteHasBitSeven : Prop :=
  ∀ (m : Motor) (s : Int) (i : Fin 4), ((command m s).get i).getLsbD 7 = true ↔ i = 0

/-- R10, R80: the machine's motor/direction byte has the three properties the spec asks of every
instance, whatever the open parameter is; every instance with them is the parameter of some
table; and the default is one. -/
def Obligations.MotorDirByteIsAnyValidInstance : Prop :=
  Config.MotorDirValid Config.motorDirByte ∧
  (∀ f, Config.MotorDirValid f → ∃ t, Config.motorDirOfTable t = f) ∧
  Config.MotorDirValid Config.motorDirByteDefault

/-! ### Reset (spec/70_reset_and_hazards.md section 1, spec/10_state.md section 5) -/

/-- R180: the reset step applies in every phase, over everything else, and leaves the reset state;
a word offered in it is neither accepted nor consumed. -/
def Obligations.ResetStepFromAnyState : Prop :=
  ∀ s : State, s.rst = true →
    (∃ t, step s = .next t ∧ t.block = Block.reset ∧ t.tick = 0) ∧
    reqReady s = false ∧ consumes s = false ∧ acceptedWord s = none

/-- R31, R181: the reset values. (The ports' values at `State.reset` are the model's choice, log 9;
`req_ready` is read with `rst` released.) -/
def Obligations.ResetValues : Prop :=
  State.reset.tx = true ∧ State.reset.phase = .idle ∧
  State.reset.buf = ⟨0x00#8, 0x00#8, 0x00#8, 0x00#8⟩ ∧ State.reset.nbytes = .zero ∧
  State.reset.bidx = 0 ∧ State.reset.slot = 0 ∧ State.reset.illegal = false ∧
  State.reset.tick = 0 ∧ status State.reset = 0x00#8 ∧ reqReady State.reset = true

/-- R182: a reset during a request ends it at once: with nothing offered after it, the line only
stays at 1, and none of the remaining slots is ever sent. -/
def Obligations.ResetCutsRequestShort : Prop :=
  ∀ (s : State) (n : Nat), s.rst = true → s.reqValid = false →
    (∀ p ∈ s.host, p.reqValid = false) →
    trace n s = List.replicate n .mark ∧ (1 ≤ n → (advanceN n s).tx = true)

/-! ### Acceptance (spec/40_serial_transmitter.md R100, R101; 41_motor_command.md R130; 60 R161) -/

/-- R100, completion: accepting SEND_BYTE writes `buf[0]`, the count, the position, the phase and
the start bit, and nothing else. -/
def Obligations.SendByteBegins : Prop :=
  ∀ (d : Byte) (s : State),
    exec (.sendByte d) s =
      .next { s with buf := { s.buf with b0 := d }, nbytes := .one, bidx := 0, slot := 0,
                     phase := .frame, tx := false }

/-- R130, completion: accepting SET_MOTOR writes the four bytes of the command, the count, the
position, the phase and the start bit, and nothing else. -/
def Obligations.SetMotorBegins : Prop :=
  ∀ (m : Motor) (v : Int) (s : State),
    exec (.setMotor m v) s =
      .next { s with buf := command m v, nbytes := .four, bidx := 0, slot := 0,
                     phase := .frame, tx := false }

/-- The frame of SEND_BYTE and SET_MOTOR: STATUS.ILLEGAL, the tick counter, the ports and the
model's own fields are unchanged by both, and SEND_BYTE leaves `buf[1..3]`. -/
def Obligations.RequestsLeaveTheRest : Prop :=
  ∀ (i : Instr) (s t : State), exec i s = .next t →
    t.illegal = s.illegal ∧ t.tick = s.tick ∧ t.rst = s.rst ∧ t.reqValid = s.reqValid ∧
    t.req = s.req ∧ t.host = s.host ∧ t.gapLeft = s.gapLeft ∧ t.draws = s.draws ∧
    (∀ d, i = .sendByte d → t.buf.b1 = s.buf.b1 ∧ t.buf.b2 = s.buf.b2 ∧ t.buf.b3 = s.buf.b3)

/-- R101, a step runs the decoded request: in IDLE with a word offered and `rst` low, the step is
`exec` of the request the word decodes to, and the host's move after a consumed word (log 1). -/
def Obligations.StepRunsDecodedRequest : Prop :=
  ∀ (s : State) (i : Instr), s.phase = .idle → s.rst = false → s.reqValid = true →
    decode s.req = .ok i →
    consumes s = true ∧ acceptedWord s = some s.req ∧
    ∃ t, exec i s = .next t ∧ step s = .next (hostMove true t)

/-- A well-formed request placed on the port is what the next step runs (log 5). -/
def Obligations.PlacedRequestRunsNext : Prop :=
  ∀ (s : State) (i : Instr), wellFormed i = true →
    decodeTableWord 32 (encode i).toNat = some i ∧
    ∃ t, exec i (offerWord (encode i) s) = .next t ∧
      step (s.withFetchWord 32 (encode i).toNat) = .next (hostMove true t)

/-- R161: an ILLEGAL word is refused. The fault records the whole word, STATUS.ILLEGAL is set,
everything else stays, and the word is consumed. (That the fault carries the state the block goes
on from is the model's choice, log 4.) -/
def Obligations.IllegalWordIsRefused : Prop :=
  ∀ (s : State) (e : DecodeError), s.phase = .idle → s.rst = false → s.reqValid = true →
    decode s.req = .error e →
    consumes s = true ∧
    ∃ t, step s = .fault (.illegalRequest s.req t) ∧
      t.block = { s.block with illegal := true } ∧ t.tick = s.tick ∧
      interval t = .mark ∧ reqReady t = !t.rst

/-- R162: the block goes on accepting after a refusal: a legal word offered next is accepted, with
STATUS reading 0x03. (The state it goes on from is the one the fault carries: the model's choice,
log 4.) -/
def Obligations.RefusalDoesNotStopTheBlock : Prop :=
  ∀ (s t : State) (w : RequestWord), step s = .fault (.illegalRequest w t) →
    t.rst = false → t.reqValid = true → (∃ i, decode t.req = .ok i) →
    ∃ u, step t = .next u ∧ u.phase = .frame ∧ status u = 0x03#8

/-! ### The sequencer (spec/40_serial_transmitter.md R102 to R107) -/

/-- R102: the next slot of a frame drives the byte's next bit, or the stop level, for one bit
period of ten ticks. -/
def Obligations.NextSlotDrivesItsBit : Prop :=
  ∀ s : State, s.rst = false → s.phase = .frame → s.slot.val < 10 →
    ∃ t, step s = .next t ∧ t.slot.val = s.slot.val + 1 ∧
      t.tx = (if s.slot.val + 1 ≤ 8 then (s.buf.get s.bidx).getLsbD s.slot.val else true) ∧
      t.block = { s.block with slot := t.slot, tx := t.tx } ∧ t.tick = s.tick ∧
      interval t = .slot t.tx ∧ intervalTicks (interval t) = 10

/-- R103: the end of the last frame returns to IDLE; the end of another begins the next frame or a
gap, and each of the two is what some gap length gives. (That the free choice is a gap length is
the model's choice, log 2.) -/
def Obligations.EndOfFrame : Prop :=
  ∀ s : State, s.rst = false → s.phase = .frame → s.slot = 10 →
    (s.bidx.val + 1 = s.nbytes.toNat →
      ∃ t, step s = .next t ∧
        t.block = { s.block with phase := .idle, bidx := 0, slot := 0 }) ∧
    (s.bidx.val + 1 < s.nbytes.toNat →
      (∃ gap, step s = slotStep gap s) ∧
      (∃ t, slotStep 0 s = .next t ∧ t.bidx.val = s.bidx.val + 1 ∧
        t.block = { s.block with bidx := t.bidx, slot := 0, tx := false }) ∧
      (∀ more, ∃ t, slotStep (more + 1) s = .next t ∧ t.gapLeft = more ∧
        t.block = { s.block with phase := .gap }))

/-- R104: a tick of gap changes nothing, or begins the next frame; and a gap is finite, since the
ticks left fall by one. (That the choice is a count of ticks left is the model's, log 2.) -/
def Obligations.GapGoesOnOrEnds : Prop :=
  ∀ s : State, s.rst = false → s.phase = .gap →
    (0 < s.gapLeft →
      ∃ t, step s = .next t ∧ t.block = s.block ∧ t.gapLeft + 1 = s.gapLeft) ∧
    (s.gapLeft = 0 → s.bidx.val < 3 →
      ∃ t, step s = .next t ∧ t.bidx.val = s.bidx.val + 1 ∧
        t.block = { s.block with bidx := t.bidx, slot := 0, phase := .frame, tx := false })

/-- R105: an idle tick changes nothing of the block, and the line holds its level. -/
def Obligations.IdleChangesNothing : Prop :=
  ∀ s : State, s.rst = false → s.phase = .idle → s.reqValid = false →
    ∃ t, step s = .next t ∧ t.block = s.block ∧ t.tick = s.tick ∧ t.gapLeft = s.gapLeft ∧
      t.draws = s.draws ∧ interval t = .mark ∧ intervalTicks (interval t) = 1

/-- R106: while the block is busy the request port makes no difference to what it does, and no word
is consumed. -/
def Obligations.BusyBlockIgnoresRequests : Prop :=
  ∀ (s : State) (v : Bool) (w : RequestWord), s.phase ≠ .idle →
    consumes s = false ∧ reqReady s = false ∧
    (advance { s with reqValid := v, req := w }).block = (advance s).block ∧
    (advance { s with reqValid := v, req := w }).gapLeft = (advance s).gapLeft ∧
    (advance { s with reqValid := v, req := w }).draws = (advance s).draws ∧
    (∃ t, step s = .next t)

/-- R143: the bytes are computed once, at acceptance, and held until the request completes; a later
change of the request port does not change them. -/
def Obligations.BytesHeldUntilComplete : Prop :=
  (∀ (s t : State) (m : Motor) (x : Int), exec (.setMotor m x) s = .next t →
    t.buf = command m x) ∧
  ∀ (s : State) (v : Bool) (w : RequestWord), s.rst = false → s.phase ≠ .idle →
    (advance { s with reqValid := v, req := w }).buf = s.buf ∧
    (advance { s with reqValid := v, req := w }).nbytes = s.nbytes

/-- R107: with `rst` low exactly one of the conditions of R101 to R105 is true, and under each of them
the step is that rule's function: acceptance or refusal, next slot, end of frame, gap, idle. (The
host's move after it is log 1; the gap length that R103's function is given is log 2.) -/
def Obligations.ExactlyOneRuleApplies : Prop :=
  ∀ s : State, s.rst = false →
    [ decide (s.phase = .idle ∧ s.reqValid = true),
      decide (s.phase = .frame ∧ s.slot.val < 10),
      decide (s.phase = .frame ∧ s.slot.val = 10),
      decide (s.phase = .gap),
      decide (s.phase = .idle ∧ s.reqValid = false) ].count true = 1 ∧
    (s.phase = .idle ∧ s.reqValid = true → step s = acceptStep s) ∧
    (s.phase = .frame ∧ s.slot.val < 10 → step s = .next (hostMove false (nextSlot s))) ∧
    (s.phase = .frame ∧ s.slot.val = 10 →
      step s = .next (hostMove false (endFrame (Config.gapLength s.draws) s))) ∧
    (s.phase = .gap → step s = .next (hostMove false (gapStep s))) ∧
    (s.phase = .idle ∧ s.reqValid = false → step s = .next (hostMove false (idleStep s)))

/-! ### What the host reads (spec/10_state.md R27, R28) -/

/-- R27: `req_ready` is 1 exactly when the phase is IDLE and `rst` is 0, and BUSY is its complement
while `rst` is 0. -/
def Obligations.ReadyExactlyWhenIdle : Prop :=
  ∀ s : State,
    (reqReady s = true ↔ s.phase = .idle ∧ s.rst = false) ∧
    (s.rst = false → (status s).getLsbD 0 = !reqReady s)

/-- R28: the fields of STATUS, and that no port the host drives writes ILLEGAL but by a refused
word or a reset. -/
def Obligations.StatusFields : Prop :=
  ∀ s : State,
    ((status s).getLsbD 0 = true ↔ s.phase = .frame ∨ s.phase = .gap) ∧
    ((status s).getLsbD 1 = s.illegal) ∧
    (∀ i, 2 ≤ i → (status s).getLsbD i = false) ∧
    ((status (advance s)).getLsbD 1 =
      (!s.rst && ((status s).getLsbD 1 ||
        (consumes s && decide (requestKind s.req = .illegal))))) ∧
    (s.rst = true → status (advance s) = 0x00#8)

/-! ### The whole machine -/

/-- R26: every step keeps the state invariants, also the step that a fault reports. -/
def Obligations.StepKeepsInvariants : Prop :=
  (∀ s t, StateInv s → step s = .next t → StateInv t) ∧
  (∀ s w t, StateInv s → step s = .fault (.illegalRequest w t) → StateInv t)

/-- The invariants hold at reset, and in the state after every reset step. -/
def Obligations.ResetEstablishesInvariants : Prop :=
  StateInv State.reset ∧ ∀ s, s.rst = true → StateInv (advance s)

/-- R184, R26: the invariants hold in every state after a launch, whatever the state before the
first reset was. -/
def Obligations.LaunchedStatesMeetInvariants : Prop :=
  ∀ s, Launched s → StateInv s

/-- R183, R184: the launch: a reset asserted on whatever state the machine powers up in leaves the
reset state, and a launched one (log 7). -/
def Obligations.PowerUpResetLaunches : Prop :=
  (advance powerUpInReset).block = Block.reset ∧ (advance powerUpInReset).tick = 0 ∧
  Launched (advance powerUpInReset)

/-- R107: the step function and the step relation are the same machine: what the step gives the
relation allows, and what the relation allows some choice of the gap gives. (The choice as a gap
length is the model's, log 2; where `bidx` is 3 with a byte to follow, which R26 excludes, both add
one as log 8 says.) -/
def Obligations.StepIsTheStepRelation : Prop :=
  (∀ s : State, BlockStep s.rst s.reqValid s.req s.block (advance s).block) ∧
  (∀ (s : State) (y : Block), BlockStep s.rst s.reqValid s.req s.block y →
    ∃ gap left, y =
      (stateAfter s (slotStep gap { s with gapLeft := left })).block)

/-- R107: only the end of a frame with more bytes to follow, and a gap, leave a choice, and they leave
two successors; every other step has one. -/
def Obligations.ChoiceOnlyAtGaps : Prop :=
  ∀ (r v : Bool) (w : RequestWord) (x : Block),
    (∃ y, BlockStep r v w x y) ∧
    ((r = false ∧ (x.phase = .gap ∨
        (x.phase = .frame ∧ x.slot = 10 ∧ x.bidx.val + 1 ≠ x.nbytes.toNat))) →
      ∃ y z, y ≠ z ∧ ∀ u, BlockStep r v w x u ↔ u = y ∨ u = z) ∧
    (¬ (r = false ∧ (x.phase = .gap ∨
        (x.phase = .frame ∧ x.slot = 10 ∧ x.bidx.val + 1 ≠ x.nbytes.toNat))) →
      ∃ y, ∀ u, BlockStep r v w x u ↔ u = y)

/-- R160, R164: the refused request is the only fault, and no step is refused for want of a
meaning. -/
def Obligations.OnlyIllegalRequestsFault : Prop :=
  ∀ s : State,
    (∀ r, step s ≠ .refused r) ∧
    ((∃ f, step s = .fault f) ↔ consumes s = true ∧ requestKind s.req = .illegal)

/-- R144, R160: a run in which the host offers only legal words never faults. -/
def Obligations.LegalRunsNeverFault : Prop :=
  ∀ (s : State) (n : Nat), LegalWords s →
    ∃ t, Sys2Proof.core.run n s = .next t ∧ t = advanceN n s

/-- R24, R30: what the host reads on `status` and `req_ready` does not depend on the data sent: two
states alike but for data, in the block and in every word the host offers now or later, read alike
after every number of steps, and consume a word in the same steps. -/
def Obligations.HostLearnsNothingOfData : Prop :=
  ∀ (s t : State) (n : Nat), SameButData s t →
    SameButData (advanceN n s) (advanceN n t) ∧
    status (advanceN n s) = status (advanceN n t) ∧
    reqReady (advanceN n s) = reqReady (advanceN n t) ∧
    consumes (advanceN n s) = consumes (advanceN n t)

/-- R175, R197: from every state that meets the invariants, with no reset to come, the block reaches
IDLE: it cannot hang. (That every gap is finite is R197's; its coding as a natural number of ticks,
drawn at the end of a frame, is the model's choice, log 2.) -/
def Obligations.EveryRequestCompletes : Prop :=
  ∀ s : State, StateInv s → NoReset s → ∃ n, (advanceN n s).phase = .idle

/-- R185, R186: the host of an empty list (the model's choice, log 1) holds a word that was not
taken and drops one that was. -/
def Obligations.DefaultHostKeepsItsDuties : Prop :=
  ∀ s : State, s.host = [] →
    HoldsOffer s ∧ (consumes s = true → (advance s).reqValid = false) ∧
    (advance s).rst = false

/-! ### The line (spec/40_serial_transmitter.md section 4) -/

/-- R100, R108, R110: an accepted SEND_BYTE puts exactly the frame of its byte on the line, one slot
a step; BUSY reads 1 for its eleven slots (110 ticks) and 0 after them, with the line at 1. -/
def Obligations.SendByteSendsItsFrame : Prop :=
  ∀ (s : State) (d : Byte), s.phase = .idle → s.reqValid = true → NoReset s →
    decode s.req = .ok (.sendByte d) →
    trace 11 s = frameTrace d ∧ traceTicks (trace 11 s) = 110 ∧
    (∀ k, 1 ≤ k → k ≤ 11 → busy (advanceN k s) = true) ∧
    busy (advanceN 12 s) = false ∧ (advanceN 12 s).tx = true ∧
    (advanceN 12 s).illegal = s.illegal ∧
    (advanceN 12 s).buf = { s.buf with b0 := d }

/-- R83, R108, R130, R142: an accepted SET_MOTOR puts the frames of its four bytes on the line, in
order, with a gap of some number of ticks at 1 between two of them and none inside a frame. (That
the three lengths are the free values at `draws`, `draws + 1` and `draws + 2` is the model's choice,
log 2.) -/
def Obligations.SetMotorSendsItsCommand : Prop :=
  ∀ (s : State) (m : Motor) (v : Int) (g1 g2 g3 : Nat),
    s.phase = .idle → s.reqValid = true → NoReset s → decode s.req = .ok (.setMotor m v) →
    g1 = Config.gapLength s.draws → g2 = Config.gapLength (s.draws + 1) →
    g3 = Config.gapLength (s.draws + 2) →
    trace (44 + g1 + g2 + g3) s =
      frameTrace 0x80#8 ++ List.replicate g1 .mark ++
      frameTrace 0x00#8 ++ List.replicate g2 .mark ++
      frameTrace (command m v).b2 ++ List.replicate g3 .mark ++
      frameTrace (command m v).b3 ∧
    traceTicks (trace (44 + g1 + g2 + g3) s) = 440 + g1 + g2 + g3 ∧
    (∀ k, 1 ≤ k → k ≤ 44 + g1 + g2 + g3 → busy (advanceN k s) = true) ∧
    busy (advanceN (45 + g1 + g2 + g3) s) = false ∧
    (advanceN (45 + g1 + g2 + g3) s).tx = true ∧
    (advanceN (45 + g1 + g2 + g3) s).illegal = s.illegal

/-- R195: the run of one SEND_BYTE, offered by a host that offers nothing more, ends at its twelfth
state. -/
def Obligations.SendByteRunEnds : Prop :=
  ∀ (s : State) (d : Byte), s.phase = .idle → s.reqValid = true → s.rst = false →
    s.host = [] → decode s.req = .ok (.sendByte d) → endsAt [s.req] 12 s

/-! ### The timed refinement (spec/70_reset_and_hazards.md R192) -/

/-- R192: in phase FRAME ten clock edges are one slot-model step, and the line keeps its level until
the last of them. -/
def Obligations.TenTicksAreOneSlot : Prop :=
  ∀ s : State, s.phase = .frame → s.tick = 0 → NoReset s →
    (∀ k, k < 10 → (clkAdvanceN k s).block = s.block ∧ (clkAdvanceN k s).tick.val = k) ∧
    (clkAdvanceN 10 s).block = (advance s).block ∧ (clkAdvanceN 10 s).tick = 0

/-- R192: outside FRAME, and under reset, every clock edge is one slot-model step; the acceptance step,
that of a refused word too (R161; log 6), and a reset set the counter to 0. -/
def Obligations.OtherEdgesAreSteps : Prop :=
  ∀ s : State, s.rst = true ∨ s.phase ≠ .frame →
    (clkAdvance s).block = (advance s).block ∧
    (s.rst = true → (clkAdvance s).tick = 0) ∧
    (consumes s = true → (clkAdvance s).tick = 0)

/-- R192: every clock edge keeps the counter at 0 outside FRAME. -/
def Obligations.ClockKeepsTickInvariant : Prop :=
  ∀ s : State, TickInv s → TickInv (clkAdvance s)

/-- R192, R191: in the timed refinement each level of a SEND_BYTE frame is on the line for ten ticks,
110 in all, and the edge after them returns to IDLE. -/
def Obligations.TimedSendByteLevels : Prop :=
  ∀ (s : State) (d : Byte), s.phase = .idle → s.reqValid = true → NoReset s →
    decode s.req = .ok (.sendByte d) →
    clkLevels 110 s = (frame d).toList.flatMap (List.replicate 10) ∧
    (clkAdvanceN 110 s).phase = .frame ∧ (clkAdvanceN 111 s).phase = .idle
end

