-- ==== Sys2Proof/Laws/Command.lean ====
section
/-! SUPPORT. The ranges and values of the command function's arithmetic. -/

namespace Sys2Proof.Machine

@[simp] theorem polarity_a (s : Int) : polarity .a s = -s := rfl
@[simp] theorem polarity_b (s : Int) : polarity .b s = s := rfl

/-- The clamp does not depend on the motor: negation keeps the magnitude. -/
@[simp] theorem magnitude_polarity (m : Motor) (s : Int) :
    magnitude (polarity m s) = magnitude s := by
  cases m <;> simp [magnitude]

theorem magnitude_le (v : Int) : magnitude v ≤ 100 := Nat.min_le_right _ _

theorem deviceSpeed_le {mag : Nat} (h : mag ≤ 100) : deviceSpeed mag ≤ 255 := by
  simp only [deviceSpeed, Config.scaleNum, Config.scaleDen]
  omega

/-- The mask keeps the device speed modulo 128. -/
theorem speedByte_toNat (ds : Nat) : (speedByte ds).toNat = ds % 128 := by
  have mask : ds &&& Config.speedMask = ds % 128 := Nat.and_two_pow_sub_one_eq_mod ds 7
  rw [speedByte, mask, BitVec.toNat_ofNat]
  omega

end Sys2Proof.Machine
end

