-- ==== Sys2Proof/Laws/Frame.lean ====
section
/-! SUPPORT. The small lemmas of the frame and of the command buffer. -/

namespace Sys2Proof.Machine

/-- Slot 0 is the start bit, low. -/
@[simp] theorem frameLevel_start (b : Byte) : frameLevel b 0 = false := rfl

/-- Slot `k + 1`, for `k` in 0 to 7, carries bit `k`. -/
theorem frameLevel_data (b : Byte) (k : Fin 8) (n : Fin 11) (h : n.val = k.val + 1) :
    frameLevel b n = b.getLsbD k.val := by
  obtain ⟨n, hn⟩ := n
  subst h
  fin_cases k <;> rfl

/-- Slots 9 and 10 are the stop bits, high. -/
theorem frameLevel_stop (b : Byte) (n : Fin 11) (h : 9 ≤ n.val) : frameLevel b n = true := by
  obtain h9 | h10 : n = 9 ∨ n = 10 := by omega
  · subst h9; rfl
  · subst h10; rfl

/-- The levels of a frame, slot by slot. -/
theorem frame_toList (b : Byte) :
    (frame b).toList = (List.finRange 11).map (frameLevel b) := by
  rfl

/-- A slot before the last has its successor's number without wrapping. -/
theorem slot_succ_val (k : Fin 11) (h : k.val < 10) : (k + 1).val = k.val + 1 := by
  rw [Fin.val_add_one_of_lt]
  exact Fin.lt_def.mpr h

/-- An index before the last has its successor's number without wrapping. -/
theorem bidx_succ_val (i : Fin 4) (h : i.val < 3) : (i + 1).val = i.val + 1 := by
  rw [Fin.val_add_one_of_lt]
  exact Fin.lt_def.mpr h

@[simp] theorem ByteCount.toNat_zero : ByteCount.zero.toNat = 0 := rfl
@[simp] theorem ByteCount.toNat_one : ByteCount.one.toNat = 1 := rfl
@[simp] theorem ByteCount.toNat_four : ByteCount.four.toNat = 4 := rfl

@[simp] theorem Buf.get_zero (b : Buf) : b.get 0 = b.b0 := rfl
@[simp] theorem Buf.get_one (b : Buf) : b.get 1 = b.b1 := rfl
@[simp] theorem Buf.get_two (b : Buf) : b.get 2 = b.b2 := rfl
@[simp] theorem Buf.get_three (b : Buf) : b.get 3 = b.b3 := rfl

end Sys2Proof.Machine
end

