-- ==== Sys2Proof/Laws/PerInstr.lean ====
section
/-! SUPPORT. Statements for every instruction, one lemma per constructor. -/

namespace Sys2Proof.Laws.TableRow

/-- Every operand's word belongs to the operation's row of the opcode table (R71, R72). -/
def Statement (i : Instr) : Prop := (rowOf i).covers (encode i) = true

theorem sendByte (data : Byte) : Statement (.sendByte data) := by
  simp only [Statement, OpcodeRow.covers, rowOf, sendByteRow, encode, beq_iff_eq]
  ext k hk
  simp only [BitVec.getElem_and, BitVec.getElem_append, BitVec.getElem_zero]
  interval_cases k <;> simp

theorem setMotor (motor : Motor) (speed : Int) : Statement (.setMotor motor speed) := by
  simp only [Statement, OpcodeRow.covers, rowOf, setMotorRow, encode, beq_iff_eq]
  ext k hk
  simp only [BitVec.getElem_and, BitVec.getElem_append, BitVec.getElem_zero]
  interval_cases k <;> simp

end Sys2Proof.Laws.TableRow
end

