-- ==== Sys2Proof/Laws/State.lean ====
section
/-! SUPPORT. The state after each named update, field by field: one lemma per field per update,
so that no proof unfolds a record update. -/

namespace Sys2Proof.Machine

variable (s : State)

/-! ### resetBlock -/

@[simp] theorem resetBlock_tx : (resetBlock s).tx = true := rfl
@[simp] theorem resetBlock_phase : (resetBlock s).phase = .idle := rfl
@[simp] theorem resetBlock_buf : (resetBlock s).buf = ⟨0#8, 0#8, 0#8, 0#8⟩ := rfl
@[simp] theorem resetBlock_nbytes : (resetBlock s).nbytes = .zero := rfl
@[simp] theorem resetBlock_bidx : (resetBlock s).bidx = 0 := rfl
@[simp] theorem resetBlock_slot : (resetBlock s).slot = 0 := rfl
@[simp] theorem resetBlock_illegal : (resetBlock s).illegal = false := rfl
@[simp] theorem resetBlock_tick : (resetBlock s).tick = 0 := rfl
@[simp] theorem resetBlock_rst : (resetBlock s).rst = s.rst := rfl
@[simp] theorem resetBlock_reqValid : (resetBlock s).reqValid = s.reqValid := rfl
@[simp] theorem resetBlock_req : (resetBlock s).req = s.req := rfl
@[simp] theorem resetBlock_host : (resetBlock s).host = s.host := rfl
@[simp] theorem resetBlock_gapLeft : (resetBlock s).gapLeft = 0 := rfl
@[simp] theorem resetBlock_draws : (resetBlock s).draws = s.draws := rfl

/-! ### beginRequest -/

@[simp] theorem beginRequest_tx (b : Buf) (n : ByteCount) : (beginRequest b n s).tx = false := rfl
@[simp] theorem beginRequest_phase (b : Buf) (n : ByteCount) : (beginRequest b n s).phase = .frame := rfl
@[simp] theorem beginRequest_buf (b : Buf) (n : ByteCount) : (beginRequest b n s).buf = b := rfl
@[simp] theorem beginRequest_nbytes (b : Buf) (n : ByteCount) : (beginRequest b n s).nbytes = n := rfl
@[simp] theorem beginRequest_bidx (b : Buf) (n : ByteCount) : (beginRequest b n s).bidx = 0 := rfl
@[simp] theorem beginRequest_slot (b : Buf) (n : ByteCount) : (beginRequest b n s).slot = 0 := rfl
@[simp] theorem beginRequest_illegal (b : Buf) (n : ByteCount) : (beginRequest b n s).illegal = s.illegal := rfl
@[simp] theorem beginRequest_tick (b : Buf) (n : ByteCount) : (beginRequest b n s).tick = s.tick := rfl
@[simp] theorem beginRequest_rst (b : Buf) (n : ByteCount) : (beginRequest b n s).rst = s.rst := rfl
@[simp] theorem beginRequest_reqValid (b : Buf) (n : ByteCount) : (beginRequest b n s).reqValid = s.reqValid := rfl
@[simp] theorem beginRequest_req (b : Buf) (n : ByteCount) : (beginRequest b n s).req = s.req := rfl
@[simp] theorem beginRequest_host (b : Buf) (n : ByteCount) : (beginRequest b n s).host = s.host := rfl
@[simp] theorem beginRequest_gapLeft (b : Buf) (n : ByteCount) : (beginRequest b n s).gapLeft = s.gapLeft := rfl
@[simp] theorem beginRequest_draws (b : Buf) (n : ByteCount) : (beginRequest b n s).draws = s.draws := rfl

/-! ### refuseRequest -/

@[simp] theorem refuseRequest_tx : (refuseRequest s).tx = s.tx := rfl
@[simp] theorem refuseRequest_phase : (refuseRequest s).phase = s.phase := rfl
@[simp] theorem refuseRequest_buf : (refuseRequest s).buf = s.buf := rfl
@[simp] theorem refuseRequest_nbytes : (refuseRequest s).nbytes = s.nbytes := rfl
@[simp] theorem refuseRequest_bidx : (refuseRequest s).bidx = s.bidx := rfl
@[simp] theorem refuseRequest_slot : (refuseRequest s).slot = s.slot := rfl
@[simp] theorem refuseRequest_illegal : (refuseRequest s).illegal = true := rfl
@[simp] theorem refuseRequest_tick : (refuseRequest s).tick = s.tick := rfl
@[simp] theorem refuseRequest_rst : (refuseRequest s).rst = s.rst := rfl
@[simp] theorem refuseRequest_reqValid : (refuseRequest s).reqValid = s.reqValid := rfl
@[simp] theorem refuseRequest_req : (refuseRequest s).req = s.req := rfl
@[simp] theorem refuseRequest_host : (refuseRequest s).host = s.host := rfl
@[simp] theorem refuseRequest_gapLeft : (refuseRequest s).gapLeft = s.gapLeft := rfl
@[simp] theorem refuseRequest_draws : (refuseRequest s).draws = s.draws := rfl

/-! ### nextSlot -/

@[simp] theorem nextSlot_tx : (nextSlot s).tx = frameLevel (s.buf.get s.bidx) (s.slot + 1) := rfl
@[simp] theorem nextSlot_phase : (nextSlot s).phase = s.phase := rfl
@[simp] theorem nextSlot_buf : (nextSlot s).buf = s.buf := rfl
@[simp] theorem nextSlot_nbytes : (nextSlot s).nbytes = s.nbytes := rfl
@[simp] theorem nextSlot_bidx : (nextSlot s).bidx = s.bidx := rfl
@[simp] theorem nextSlot_slot : (nextSlot s).slot = s.slot + 1 := rfl
@[simp] theorem nextSlot_illegal : (nextSlot s).illegal = s.illegal := rfl
@[simp] theorem nextSlot_tick : (nextSlot s).tick = s.tick := rfl
@[simp] theorem nextSlot_rst : (nextSlot s).rst = s.rst := rfl
@[simp] theorem nextSlot_reqValid : (nextSlot s).reqValid = s.reqValid := rfl
@[simp] theorem nextSlot_req : (nextSlot s).req = s.req := rfl
@[simp] theorem nextSlot_host : (nextSlot s).host = s.host := rfl
@[simp] theorem nextSlot_gapLeft : (nextSlot s).gapLeft = s.gapLeft := rfl
@[simp] theorem nextSlot_draws : (nextSlot s).draws = s.draws := rfl

/-! ### finishRequest -/

@[simp] theorem finishRequest_tx : (finishRequest s).tx = s.tx := rfl
@[simp] theorem finishRequest_phase : (finishRequest s).phase = .idle := rfl
@[simp] theorem finishRequest_buf : (finishRequest s).buf = s.buf := rfl
@[simp] theorem finishRequest_nbytes : (finishRequest s).nbytes = s.nbytes := rfl
@[simp] theorem finishRequest_bidx : (finishRequest s).bidx = 0 := rfl
@[simp] theorem finishRequest_slot : (finishRequest s).slot = 0 := rfl
@[simp] theorem finishRequest_illegal : (finishRequest s).illegal = s.illegal := rfl
@[simp] theorem finishRequest_tick : (finishRequest s).tick = s.tick := rfl
@[simp] theorem finishRequest_rst : (finishRequest s).rst = s.rst := rfl
@[simp] theorem finishRequest_reqValid : (finishRequest s).reqValid = s.reqValid := rfl
@[simp] theorem finishRequest_req : (finishRequest s).req = s.req := rfl
@[simp] theorem finishRequest_host : (finishRequest s).host = s.host := rfl
@[simp] theorem finishRequest_gapLeft : (finishRequest s).gapLeft = s.gapLeft := rfl
@[simp] theorem finishRequest_draws : (finishRequest s).draws = s.draws := rfl

/-! ### startNextFrame -/

@[simp] theorem startNextFrame_tx : (startNextFrame s).tx = false := rfl
@[simp] theorem startNextFrame_phase : (startNextFrame s).phase = .frame := rfl
@[simp] theorem startNextFrame_buf : (startNextFrame s).buf = s.buf := rfl
@[simp] theorem startNextFrame_nbytes : (startNextFrame s).nbytes = s.nbytes := rfl
@[simp] theorem startNextFrame_bidx : (startNextFrame s).bidx = s.bidx + 1 := rfl
@[simp] theorem startNextFrame_slot : (startNextFrame s).slot = 0 := rfl
@[simp] theorem startNextFrame_illegal : (startNextFrame s).illegal = s.illegal := rfl
@[simp] theorem startNextFrame_tick : (startNextFrame s).tick = s.tick := rfl
@[simp] theorem startNextFrame_rst : (startNextFrame s).rst = s.rst := rfl
@[simp] theorem startNextFrame_reqValid : (startNextFrame s).reqValid = s.reqValid := rfl
@[simp] theorem startNextFrame_req : (startNextFrame s).req = s.req := rfl
@[simp] theorem startNextFrame_host : (startNextFrame s).host = s.host := rfl
@[simp] theorem startNextFrame_gapLeft : (startNextFrame s).gapLeft = s.gapLeft := rfl
@[simp] theorem startNextFrame_draws : (startNextFrame s).draws = s.draws := rfl

/-! ### enterGap -/

@[simp] theorem enterGap_tx (n : Nat) : (enterGap n s).tx = s.tx := rfl
@[simp] theorem enterGap_phase (n : Nat) : (enterGap n s).phase = .gap := rfl
@[simp] theorem enterGap_buf (n : Nat) : (enterGap n s).buf = s.buf := rfl
@[simp] theorem enterGap_nbytes (n : Nat) : (enterGap n s).nbytes = s.nbytes := rfl
@[simp] theorem enterGap_bidx (n : Nat) : (enterGap n s).bidx = s.bidx := rfl
@[simp] theorem enterGap_slot (n : Nat) : (enterGap n s).slot = s.slot := rfl
@[simp] theorem enterGap_illegal (n : Nat) : (enterGap n s).illegal = s.illegal := rfl
@[simp] theorem enterGap_tick (n : Nat) : (enterGap n s).tick = s.tick := rfl
@[simp] theorem enterGap_rst (n : Nat) : (enterGap n s).rst = s.rst := rfl
@[simp] theorem enterGap_reqValid (n : Nat) : (enterGap n s).reqValid = s.reqValid := rfl
@[simp] theorem enterGap_req (n : Nat) : (enterGap n s).req = s.req := rfl
@[simp] theorem enterGap_host (n : Nat) : (enterGap n s).host = s.host := rfl
@[simp] theorem enterGap_gapLeft (n : Nat) : (enterGap n s).gapLeft = n := rfl
@[simp] theorem enterGap_draws (n : Nat) : (enterGap n s).draws = s.draws := rfl

/-! ### holdGap -/

@[simp] theorem holdGap_tx (n : Nat) : (holdGap n s).tx = s.tx := rfl
@[simp] theorem holdGap_phase (n : Nat) : (holdGap n s).phase = s.phase := rfl
@[simp] theorem holdGap_buf (n : Nat) : (holdGap n s).buf = s.buf := rfl
@[simp] theorem holdGap_nbytes (n : Nat) : (holdGap n s).nbytes = s.nbytes := rfl
@[simp] theorem holdGap_bidx (n : Nat) : (holdGap n s).bidx = s.bidx := rfl
@[simp] theorem holdGap_slot (n : Nat) : (holdGap n s).slot = s.slot := rfl
@[simp] theorem holdGap_illegal (n : Nat) : (holdGap n s).illegal = s.illegal := rfl
@[simp] theorem holdGap_tick (n : Nat) : (holdGap n s).tick = s.tick := rfl
@[simp] theorem holdGap_rst (n : Nat) : (holdGap n s).rst = s.rst := rfl
@[simp] theorem holdGap_reqValid (n : Nat) : (holdGap n s).reqValid = s.reqValid := rfl
@[simp] theorem holdGap_req (n : Nat) : (holdGap n s).req = s.req := rfl
@[simp] theorem holdGap_host (n : Nat) : (holdGap n s).host = s.host := rfl
@[simp] theorem holdGap_gapLeft (n : Nat) : (holdGap n s).gapLeft = n := rfl
@[simp] theorem holdGap_draws (n : Nat) : (holdGap n s).draws = s.draws := rfl

/-! ### noteDraw -/

@[simp] theorem noteDraw_tx : (noteDraw s).tx = s.tx := rfl
@[simp] theorem noteDraw_phase : (noteDraw s).phase = s.phase := rfl
@[simp] theorem noteDraw_buf : (noteDraw s).buf = s.buf := rfl
@[simp] theorem noteDraw_nbytes : (noteDraw s).nbytes = s.nbytes := rfl
@[simp] theorem noteDraw_bidx : (noteDraw s).bidx = s.bidx := rfl
@[simp] theorem noteDraw_slot : (noteDraw s).slot = s.slot := rfl
@[simp] theorem noteDraw_illegal : (noteDraw s).illegal = s.illegal := rfl
@[simp] theorem noteDraw_tick : (noteDraw s).tick = s.tick := rfl
@[simp] theorem noteDraw_rst : (noteDraw s).rst = s.rst := rfl
@[simp] theorem noteDraw_reqValid : (noteDraw s).reqValid = s.reqValid := rfl
@[simp] theorem noteDraw_req : (noteDraw s).req = s.req := rfl
@[simp] theorem noteDraw_host : (noteDraw s).host = s.host := rfl
@[simp] theorem noteDraw_gapLeft : (noteDraw s).gapLeft = s.gapLeft := rfl
@[simp] theorem noteDraw_draws : (noteDraw s).draws = s.draws + 1 := rfl

/-! ### countTick -/

@[simp] theorem countTick_tx : (countTick s).tx = s.tx := rfl
@[simp] theorem countTick_phase : (countTick s).phase = s.phase := rfl
@[simp] theorem countTick_buf : (countTick s).buf = s.buf := rfl
@[simp] theorem countTick_nbytes : (countTick s).nbytes = s.nbytes := rfl
@[simp] theorem countTick_bidx : (countTick s).bidx = s.bidx := rfl
@[simp] theorem countTick_slot : (countTick s).slot = s.slot := rfl
@[simp] theorem countTick_illegal : (countTick s).illegal = s.illegal := rfl
@[simp] theorem countTick_tick : (countTick s).tick = s.tick + 1 := rfl
@[simp] theorem countTick_rst : (countTick s).rst = s.rst := rfl
@[simp] theorem countTick_reqValid : (countTick s).reqValid = s.reqValid := rfl
@[simp] theorem countTick_req : (countTick s).req = s.req := rfl
@[simp] theorem countTick_host : (countTick s).host = s.host := rfl
@[simp] theorem countTick_gapLeft : (countTick s).gapLeft = s.gapLeft := rfl
@[simp] theorem countTick_draws : (countTick s).draws = s.draws := rfl

/-! ### clearTick -/

@[simp] theorem clearTick_tx : (clearTick s).tx = s.tx := rfl
@[simp] theorem clearTick_phase : (clearTick s).phase = s.phase := rfl
@[simp] theorem clearTick_buf : (clearTick s).buf = s.buf := rfl
@[simp] theorem clearTick_nbytes : (clearTick s).nbytes = s.nbytes := rfl
@[simp] theorem clearTick_bidx : (clearTick s).bidx = s.bidx := rfl
@[simp] theorem clearTick_slot : (clearTick s).slot = s.slot := rfl
@[simp] theorem clearTick_illegal : (clearTick s).illegal = s.illegal := rfl
@[simp] theorem clearTick_tick : (clearTick s).tick = 0 := rfl
@[simp] theorem clearTick_rst : (clearTick s).rst = s.rst := rfl
@[simp] theorem clearTick_reqValid : (clearTick s).reqValid = s.reqValid := rfl
@[simp] theorem clearTick_req : (clearTick s).req = s.req := rfl
@[simp] theorem clearTick_host : (clearTick s).host = s.host := rfl
@[simp] theorem clearTick_gapLeft : (clearTick s).gapLeft = s.gapLeft := rfl
@[simp] theorem clearTick_draws : (clearTick s).draws = s.draws := rfl

/-! ### hostMove: the block's fields, and the ports by the two forms of the host's list -/

@[simp] theorem hostMove_tx (c : Bool) : (hostMove c s).tx = s.tx := by
  unfold hostMove; split <;> rfl

@[simp] theorem hostMove_phase (c : Bool) : (hostMove c s).phase = s.phase := by
  unfold hostMove; split <;> rfl

@[simp] theorem hostMove_buf (c : Bool) : (hostMove c s).buf = s.buf := by
  unfold hostMove; split <;> rfl

@[simp] theorem hostMove_nbytes (c : Bool) : (hostMove c s).nbytes = s.nbytes := by
  unfold hostMove; split <;> rfl

@[simp] theorem hostMove_bidx (c : Bool) : (hostMove c s).bidx = s.bidx := by
  unfold hostMove; split <;> rfl

@[simp] theorem hostMove_slot (c : Bool) : (hostMove c s).slot = s.slot := by
  unfold hostMove; split <;> rfl

@[simp] theorem hostMove_illegal (c : Bool) : (hostMove c s).illegal = s.illegal := by
  unfold hostMove; split <;> rfl

@[simp] theorem hostMove_tick (c : Bool) : (hostMove c s).tick = s.tick := by
  unfold hostMove; split <;> rfl

@[simp] theorem hostMove_gapLeft (c : Bool) : (hostMove c s).gapLeft = s.gapLeft := by
  unfold hostMove; split <;> rfl

@[simp] theorem hostMove_draws (c : Bool) : (hostMove c s).draws = s.draws := by
  unfold hostMove; split <;> rfl

/-- The host's move when its list is empty: `rst` is released, a word not taken is held (R185) and
one taken is dropped (R186). -/
theorem hostMove_nil (c : Bool) (h : s.host = []) :
    hostMove c s = { s with rst := false, reqValid := s.reqValid && !c } := by
  unfold hostMove; rw [h]

/-- The host's move when its list has a next entry: the ports take that entry. -/
theorem hostMove_cons (c : Bool) (p : HostInputs) (rest : List HostInputs)
    (h : s.host = p :: rest) :
    hostMove c s = { s with rst := p.rst, reqValid := p.reqValid, req := p.req, host := rest } := by
  unfold hostMove; rw [h]

/-- The host's list loses its first entry at every move. -/
@[simp] theorem hostMove_host (c : Bool) : (hostMove c s).host = s.host.tail := by
  unfold hostMove; split <;> simp_all

end Sys2Proof.Machine
end

