-- ==== Sys2Proof/Laws/Step.lean ====
section
/-! SUPPORT. What each shared operation of the step can do, said once: callers cite these and do
not unfold the step. -/

namespace Sys2Proof.Machine

@[simp] theorem afterAccept_next (t : State) :
    afterAccept (.next t) = .next (hostMove true t) := rfl

/-- Every accepted request answers a next state with its bytes in `buf` and its start bit on the
line. -/
theorem exec_begins (i : Instr) (s : State) :
    ∃ b n, exec i s = .next (beginRequest b n s) ∧ (n = .one ∨ n = .four) := by
  cases i
  · exact ⟨_, _, rfl, .inl rfl⟩
  · exact ⟨_, _, rfl, .inr rfl⟩

theorem endFrame_last (gap : Nat) {s : State} (h : s.bidx.val + 1 = s.nbytes.toNat) :
    endFrame gap s = finishRequest s := if_pos h

theorem endFrame_next {s : State} (h : s.bidx.val + 1 ≠ s.nbytes.toNat) :
    endFrame 0 s = startNextFrame (noteDraw s) := if_neg h

theorem endFrame_gap (more : Nat) {s : State} (h : s.bidx.val + 1 ≠ s.nbytes.toNat) :
    endFrame (more + 1) s = enterGap more (noteDraw s) := if_neg h

/-- A frame ends in one of three ways (R103). -/
theorem endFrame_cases (gap : Nat) (s : State) :
    (s.bidx.val + 1 = s.nbytes.toNat ∧ endFrame gap s = finishRequest s) ∨
    (s.bidx.val + 1 ≠ s.nbytes.toNat ∧ gap = 0 ∧
      endFrame gap s = startNextFrame (noteDraw s)) ∨
    (s.bidx.val + 1 ≠ s.nbytes.toNat ∧ ∃ more, gap = more + 1 ∧
      endFrame gap s = enterGap more (noteDraw s)) := by
  by_cases h : s.bidx.val + 1 = s.nbytes.toNat
  · exact .inl ⟨h, endFrame_last gap h⟩
  · cases gap
    · exact .inr (.inl ⟨h, rfl, endFrame_next h⟩)
    · exact .inr (.inr ⟨h, _, rfl, endFrame_gap _ h⟩)

/-- A gap goes on or ends (R104). -/
theorem gapStep_cases (s : State) :
    (∃ more, s.gapLeft = more + 1 ∧ gapStep s = holdGap more s) ∨
    (s.gapLeft = 0 ∧ gapStep s = startNextFrame s) := by
  unfold gapStep
  split
  · exact .inl ⟨_, ‹_›, rfl⟩
  · exact .inr ⟨‹_›, rfl⟩

/-- The end of a frame neither reads nor writes the request port. -/
theorem endFrame_ports (gap : Nat) (s : State) (v : Bool) (w : RequestWord) :
    endFrame gap { s with reqValid := v, req := w } =
      { endFrame gap s with reqValid := v, req := w } := by
  obtain ⟨h, e⟩ | ⟨h, rfl, e⟩ | ⟨h, _, rfl, e⟩ := endFrame_cases gap s
  · rw [e]; exact endFrame_last gap h
  · rw [e]; exact endFrame_next h
  · rw [e]; exact endFrame_gap _ h

/-- A tick of gap neither reads nor writes the request port. -/
theorem gapStep_ports (s : State) (v : Bool) (w : RequestWord) :
    gapStep { s with reqValid := v, req := w } =
      { gapStep s with reqValid := v, req := w } := by
  cases h : s.gapLeft <;> simp [gapStep, h] <;> rfl

section Slot

variable {gap : Nat} {s : State}

theorem slotStep_reset (h : s.rst = true) :
    slotStep gap s = .next (hostMove false (resetBlock s)) := by
  simp [slotStep, h]

theorem slotStep_nextSlot (hr : s.rst = false) (hp : s.phase = .frame) (hs : s.slot.val < 10) :
    slotStep gap s = .next (hostMove false (nextSlot s)) := by
  simp [slotStep, hr, hp, frameStep, hs]

theorem slotStep_endFrame (hr : s.rst = false) (hp : s.phase = .frame) (hs : s.slot = 10) :
    slotStep gap s = .next (hostMove false (endFrame gap s)) := by
  simp [slotStep, hr, hp, frameStep, hs]

theorem slotStep_gap (hr : s.rst = false) (hp : s.phase = .gap) :
    slotStep gap s = .next (hostMove false (gapStep s)) := by
  simp [slotStep, hr, hp]

theorem slotStep_idle (hr : s.rst = false) (hp : s.phase = .idle) (hv : s.reqValid = false) :
    slotStep gap s = .next (hostMove false s) := by
  simp [slotStep, hr, hp, hv, idleStep]

theorem slotStep_accept {i : Instr} {t : State} (hr : s.rst = false) (hp : s.phase = .idle)
    (hv : s.reqValid = true) (hd : decode s.req = .ok i) (he : exec i s = .next t) :
    slotStep gap s = .next (hostMove true t) := by
  simp [slotStep, hr, hp, hv, acceptStep, hd, he]

theorem slotStep_refuse {e : DecodeError} (hr : s.rst = false) (hp : s.phase = .idle)
    (hv : s.reqValid = true) (hd : decode s.req = .error e) :
    slotStep gap s = .fault (.illegalRequest s.req (hostMove true (refuseRequest s))) := by
  simp [slotStep, hr, hp, hv, acceptStep, hd]

end Slot

/-- The slot is the last one or one before it. -/
theorem slot_lt_or_last (s : State) : s.slot.val < 10 ∨ s.slot = 10 := by omega

/-- INVERSION: everything one step can do, with what it can do it in (R166, R107). -/
theorem slotStep_cases (gap : Nat) (s : State) :
    (s.rst = true ∧ slotStep gap s = .next (hostMove false (resetBlock s))) ∨
    (s.rst = false ∧ s.phase = .frame ∧ s.slot.val < 10 ∧
      slotStep gap s = .next (hostMove false (nextSlot s))) ∨
    (s.rst = false ∧ s.phase = .frame ∧ s.slot = 10 ∧
      slotStep gap s = .next (hostMove false (endFrame gap s))) ∨
    (s.rst = false ∧ s.phase = .gap ∧ slotStep gap s = .next (hostMove false (gapStep s))) ∨
    (s.rst = false ∧ s.phase = .idle ∧ s.reqValid = false ∧
      slotStep gap s = .next (hostMove false s)) ∨
    (s.rst = false ∧ s.phase = .idle ∧ s.reqValid = true ∧
      ∃ i t, decode s.req = .ok i ∧ exec i s = .next t ∧
        slotStep gap s = .next (hostMove true t)) ∨
    (s.rst = false ∧ s.phase = .idle ∧ s.reqValid = true ∧
      ∃ e, decode s.req = .error e ∧
        slotStep gap s = .fault (.illegalRequest s.req (hostMove true (refuseRequest s)))) := by
  cases hr : s.rst
  · cases hp : s.phase
    · cases hv : s.reqValid
      · simp [slotStep_idle hr hp hv]
      · cases hd : decode s.req with
        | error e => simp [slotStep_refuse hr hp hv hd]
        | ok i =>
          obtain ⟨b, n, he, -⟩ := exec_begins i s
          simp [slotStep_accept hr hp hv hd he, he]
    · obtain hs | hs := slot_lt_or_last s
      · simp [slotStep_nextSlot hr hp hs, hs]
      · simp [slotStep_endFrame hr hp hs, hs]
    · simp [slotStep_gap hr hp]
  · simp [slotStep_reset hr]

/-- The block goes on from the next state, or from the state a refused request leaves. -/
theorem advance_of_next {s t : State} (h : step s = .next t) : advance s = t := by
  simp [advance, h, stateAfter]

theorem advance_of_fault {s t : State} {w : RequestWord}
    (h : step s = .fault (.illegalRequest w t)) : advance s = t := by
  simp [advance, h, stateAfter]

/-- Clearing the counter after a step clears it in the state the block goes on from, whether the
step answers a next state or refuses a request. -/
theorem stateAfter_clearTickAfter {s : State} {o : Host.Outcome State Fault Refusal}
    (h : ∀ r, o ≠ .refused r) : stateAfter s (clearTickAfter o) = clearTick (stateAfter s o) := by
  cases o with
  | next t => rfl
  | fault f => cases f; rfl
  | refused r => exact absurd rfl (h r)

/-- The host's move does not touch the block. -/
@[simp] theorem hostMove_block (c : Bool) (s : State) : (hostMove c s).block = s.block := by
  simp [State.block]

@[simp] theorem advanceN_zero (s : State) : advanceN 0 s = s := rfl

theorem advanceN_succ (n : Nat) (s : State) :
    advanceN (n + 1) s = advanceN n (advance s) := rfl

theorem advanceN_add (m n : Nat) (s : State) :
    advanceN (m + n) s = advanceN n (advanceN m s) := by
  induction m generalizing s with
  | zero => simp
  | succ k ih => rw [Nat.add_right_comm, advanceN_succ, advanceN_succ, ih]

@[simp] theorem trace_zero (s : State) : trace 0 s = [] := rfl

theorem trace_succ (n : Nat) (s : State) :
    trace (n + 1) s = interval (advance s) :: trace n (advance s) := rfl

theorem trace_add (m n : Nat) (s : State) :
    trace (m + n) s = trace m s ++ trace n (advanceN m s) := by
  induction m generalizing s with
  | zero => simp
  | succ k ih =>
    rw [Nat.add_right_comm, trace_succ, trace_succ, advanceN_succ, ih, List.cons_append]

/-- The host's move keeps the promise that no reset is to come. -/
theorem NoReset.hostMove {s : State} (h : NoReset s) (c : Bool) : NoReset (hostMove c s) := by
  obtain ⟨-, ha⟩ := h
  cases hh : s.host with
  | nil => simp [NoReset, hostMove_nil s c hh, hh]
  | cons p rest =>
    rw [hh] at ha
    simp only [NoReset, hostMove_cons s c p rest hh]
    exact ⟨ha p (by simp), fun q hq => ha q (by simp [hq])⟩

/-- An update that leaves `rst` and the host's moves alone keeps that promise too. -/
theorem NoReset.congr {s t : State} (h : NoReset s) (hr : t.rst = s.rst)
    (hh : t.host = s.host) : NoReset t := by
  simpa [NoReset, hr, hh] using h

end Sys2Proof.Machine
end

