-- ==== Sys2Proof/Laws/Words.lean ====
section
/-! SUPPORT. The fields of a request word, and the words of the requests, as numbers: what turns a
claim about encodings into arithmetic. -/

namespace Sys2Proof

theorem opField_toNat (w : RequestWord) : (opField w).toNat = w.toNat / 2 ^ 30 := by
  have := w.isLt
  simp only [opField, BitVec.extractLsb'_toNat, Nat.shiftRight_eq_div_pow]
  omega

theorem dataField_toNat (w : RequestWord) : (dataField w).toNat = w.toNat % 256 := by
  simp [dataField, BitVec.extractLsb'_toNat]

theorem motorField_toNat (w : RequestWord) : (motorField w).toNat = w.toNat / 2 ^ 16 % 2 := by
  simp [motorField, BitVec.extractLsb'_toNat, Nat.shiftRight_eq_div_pow]

theorem speedField_toNat (w : RequestWord) : (speedField w).toNat = w.toNat % 65536 := by
  simp [speedField, BitVec.extractLsb'_toNat]

theorem sendByteReserved_toNat (w : RequestWord) :
    (w.extractLsb' 8 22).toNat = w.toNat / 2 ^ 8 % 2 ^ 22 := by
  simp [BitVec.extractLsb'_toNat, Nat.shiftRight_eq_div_pow]

theorem setMotorReserved_toNat (w : RequestWord) :
    (w.extractLsb' 17 13).toNat = w.toNat / 2 ^ 17 % 2 ^ 13 := by
  simp [BitVec.extractLsb'_toNat, Nat.shiftRight_eq_div_pow]

/-- Concatenation puts the first part in the high bits (R11). -/
theorem append_toNat {m n : Nat} (x : BitVec m) (y : BitVec n) :
    (x ++ y).toNat = x.toNat * 2 ^ n + y.toNat := by
  rw [BitVec.toNat_append, Nat.shiftLeft_eq, Nat.mul_comm, Nat.two_pow_add_eq_or_of_lt y.isLt]

theorem encode_sendByte_toNat (d : Byte) : (encode (.sendByte d)).toNat = d.toNat := by
  simp only [encode, append_toNat]
  simp

theorem encode_setMotor_toNat (m : Motor) (v : Int) :
    (encode (.setMotor m v)).toNat =
      2 ^ 30 + (if m = .a then 0 else 65536) + (BitVec.ofInt 16 v).toNat := by
  cases m <;> simp only [encode, append_toNat, bitOfMotor] <;> simp

end Sys2Proof
end

