-- ==== Sys2Proof/Tests/Slice0.lean ====
section
/-! SUPPORT. Tests: expected values come from the spec's tables (spec/30_encoding.md R87,
spec/41_motor_command.md R138) and vectors (spec/95_test_vectors.md V-*); and for every obligation
with hypotheses a state and operands that meet them. -/

open Sys2Proof Sys2Proof.Machine

namespace Sys2Proof.Tests

/-! ### Well-formedness: each check refuses an ill-formed term -/

theorem test_speed_above_range_refused : wellFormed (.setMotor .a 32768) = false := by decide
theorem test_speed_below_range_refused : wellFormed (.setMotor .b (-32769)) = false := by decide
theorem test_speed_extremes_well_formed :
    wellFormed (.setMotor .b (-32768)) = true ∧ wellFormed (.setMotor .a 32767) = true := by decide

/-! ### Decoding: words written out from the spec's formats (R71, R72; V-D1 to V-D13, R87) -/

theorem test_decode_send_byte :
    decode 0b00000000000000000000000001010101#32 = .ok (.sendByte 0x55#8) ∧
    decode 0x000000FF#32 = .ok (.sendByte 0xFF#8) := by decide

theorem test_decode_set_motor :
    decode 0b01000000000000001111111110011100#32 = .ok (.setMotor .a (-100)) ∧
    decode 0b01000000000000010000000001100100#32 = .ok (.setMotor .b 100) ∧
    decode 0x4001FFFF#32 = .ok (.setMotor .b (-1)) ∧
    decode 0x40018000#32 = .ok (.setMotor .b (-32768)) ∧
    decode 0x40007FFF#32 = .ok (.setMotor .a 32767) := by decide

theorem test_decode_illegal :
    decode 0x00000100#32 = .error .reservedSendByteBits ∧
    decode 0x3FFFFF00#32 = .error .reservedSendByteBits ∧
    decode 0x40020000#32 = .error .reservedSetMotorBits ∧
    decode 0x7FFE0000#32 = .error .reservedSetMotorBits ∧
    decode 0x80000000#32 = .error .reservedOp ∧
    decode 0xC0000055#32 = .error .reservedOp ∧
    decode 0xFFFFFFFF#32 = .error .reservedOp := by decide

theorem test_decode_table_word :
    decodeTableWord 32 0x40000000 = some (.setMotor .a 0) ∧ decodeTableWord 32 0 = some (.sendByte 0) ∧
    decodeTableWord 32 0x80000000 = none := by decide

/-! ### The assembler (R85 to R87) -/

theorem test_assemble_send_byte :
    assembleLine "sendbyte 0x80" = some [0x00000080#32] ∧
    assembleLine "sendbyte 256" = none := by decide

theorem test_assemble_set_motor :
    assembleLine "setmotor A, -100" = some [0x4000FF9C#32] ∧
    assembleLine "setmotor B, 82" = some [0x40010052#32] ∧
    assembleLine "setmotor A, 32768" = none := by decide

theorem test_assemble_word_and_stop :
    assembleLine ".word 0x80000000 ; OP = 0b10" = some [0x80000000#32] ∧
    assembleLine "stop" = some [0x40000000#32, 0x40010000#32] := by decide

/-! ### Frames (V-F3, V-F5, V-F9) -/

theorem test_frame_levels :
    (frame 0x55#8).toList =
      [false, true, false, true, false, true, false, true, false, true, true] ∧
    (frame 0x80#8).toList =
      [false, false, false, false, false, false, false, false, true, true, true] := by decide

theorem test_frame_words :
    frameWord 0x00#8 = 0x600#11 ∧ frameWord 0x55#8 = 0x6AA#11 ∧ frameWord 0x51#8 = 0x6A2#11 := by
  decide

/-! ### Commands with the default MOTOR_DIR_BYTE (V-M1, V-M2, V-M6, V-M10, V-M18, V-M21, V-M24) -/

theorem test_command_bytes :
    commandWith Config.motorDirByteDefault .a 0 = ⟨0x80, 0x00, 0x01, 0x00⟩ ∧
    commandWith Config.motorDirByteDefault .b 0 = ⟨0x80, 0x00, 0x03, 0x00⟩ ∧
    commandWith Config.motorDirByteDefault .b (-1) = ⟨0x80, 0x00, 0x02, 0x02⟩ ∧
    commandWith Config.motorDirByteDefault .a (-51) = ⟨0x80, 0x00, 0x01, 0x02⟩ ∧
    commandWith Config.motorDirByteDefault .b (-500) = ⟨0x80, 0x00, 0x02, 0x7F⟩ ∧
    commandWith Config.motorDirByteDefault .a (-32768) = ⟨0x80, 0x00, 0x01, 0x7F⟩ ∧
    commandWith Config.motorDirByteDefault .b 82 = ⟨0x80, 0x00, 0x03, 0x51⟩ := by decide

/-! The table of R138, in four parts: device speed and speed byte of every magnitude. -/

theorem test_speed_table_from_0 :
    (List.range' 0 26).map (fun mag => (deviceSpeed mag, (speedByte (deviceSpeed mag)).toNat)) =
    [(0, 0x00), (2, 0x02), (5, 0x05), (7, 0x07), (10, 0x0A), (12, 0x0C), (15, 0x0F), (17, 0x11),
     (20, 0x14), (22, 0x16), (25, 0x19), (28, 0x1C), (30, 0x1E), (33, 0x21), (35, 0x23), (38,
     0x26), (40, 0x28), (43, 0x2B), (45, 0x2D), (48, 0x30), (51, 0x33), (53, 0x35), (56, 0x38),
     (58, 0x3A), (61, 0x3D), (63, 0x3F)] := by
  decide

theorem test_speed_table_from_26 :
    (List.range' 26 25).map (fun mag => (deviceSpeed mag, (speedByte (deviceSpeed mag)).toNat)) =
    [(66, 0x42), (68, 0x44), (71, 0x47), (73, 0x49), (76, 0x4C), (79, 0x4F), (81, 0x51), (84,
     0x54), (86, 0x56), (89, 0x59), (91, 0x5B), (94, 0x5E), (96, 0x60), (99, 0x63), (102, 0x66),
     (104, 0x68), (107, 0x6B), (109, 0x6D), (112, 0x70), (114, 0x72), (117, 0x75), (119, 0x77),
     (122, 0x7A), (124, 0x7C), (127, 0x7F)] := by
  decide

theorem test_speed_table_from_51 :
    (List.range' 51 25).map (fun mag => (deviceSpeed mag, (speedByte (deviceSpeed mag)).toNat)) =
    [(130, 0x02), (132, 0x04), (135, 0x07), (137, 0x09), (140, 0x0C), (142, 0x0E), (145, 0x11),
     (147, 0x13), (150, 0x16), (153, 0x19), (155, 0x1B), (158, 0x1E), (160, 0x20), (163, 0x23),
     (165, 0x25), (168, 0x28), (170, 0x2A), (173, 0x2D), (175, 0x2F), (178, 0x32), (181, 0x35),
     (183, 0x37), (186, 0x3A), (188, 0x3C), (191, 0x3F)] := by
  decide

theorem test_speed_table_from_76 :
    (List.range' 76 25).map (fun mag => (deviceSpeed mag, (speedByte (deviceSpeed mag)).toNat)) =
    [(193, 0x41), (196, 0x44), (198, 0x46), (201, 0x49), (204, 0x4C), (206, 0x4E), (209, 0x51),
     (211, 0x53), (214, 0x56), (216, 0x58), (219, 0x5B), (221, 0x5D), (224, 0x60), (226, 0x62),
     (229, 0x65), (232, 0x68), (234, 0x6A), (237, 0x6D), (239, 0x6F), (242, 0x72), (244, 0x74),
     (247, 0x77), (249, 0x79), (252, 0x7C), (255, 0x7F)] := by
  decide

/-! ### Single steps (V-S1 to V-S13) -/

/-- The reset state with a word offered. -/
def offering (w : RequestWord) : State := { State.reset with reqValid := true, req := w }

/-- A SEND_BYTE of 0x55 in one of its slots. -/
def sending (slot : Fin 11) (tx : Level) : State :=
  { State.reset with phase := .frame, buf := ⟨0x55, 0, 0, 0⟩, nbytes := .one, slot := slot, tx := tx }

/-- A SET_MOTOR at the end of a frame, or in the gap after one. -/
def commanding (phase : Phase) (bidx : Fin 4) : State :=
  { State.reset with
    phase := phase, buf := ⟨0x80, 0x00, 0x03, 0x7F⟩, nbytes := .four, bidx := bidx, slot := 10 }

/-- The word of the fault an outcome reports, and the STATUS it leaves. -/
def faultOf (o : Host.Outcome State Fault Refusal) : Option (RequestWord × BitVec 8) :=
  match o with
  | .fault (.illegalRequest w t) => some (w, status t)
  | .next _ => none
  | .refused _ => none

theorem test_send_byte_is_accepted :
    (advance (offering 0x00000055#32)).block =
      { State.reset.block with
        phase := .frame, buf := ⟨0x55, 0, 0, 0⟩, nbytes := .one, tx := false } ∧
    status (advance (offering 0x00000055#32)) = 0x01#8 := by decide

theorem test_set_motor_is_accepted :
    (advance (offering 0x40010033#32)).buf.b0 = 0x80#8 ∧
    (advance (offering 0x40010033#32)).buf.b3 = 0x02#8 ∧
    (advance (offering 0x40010033#32)).nbytes = .four ∧
    (advance (offering 0x40010033#32)).tx = false := by decide

theorem test_illegal_word_is_refused :
    faultOf (step (offering 0x80000000#32)) = some (0x80000000#32, 0x02#8) := by decide

theorem test_slots_of_a_frame :
    (advance (sending 0 false)).tx = true ∧ (advance (sending 1 true)).tx = false ∧
    (advance (sending 8 false)).slot = 9 ∧ (advance (sending 8 false)).tx = true ∧
    (advance (sending 10 true)).phase = .idle := by decide

theorem test_gap_ends_with_a_start_bit :
    (advance (commanding .gap 1)).bidx = 2 ∧ (advance (commanding .gap 1)).tx = false ∧
    (advance (commanding .frame 3)).phase = .idle := by decide

theorem test_reset_wins :
    (advance { commanding .frame 2 with rst := true, illegal := true }).block = Block.reset ∧
    consumes { offering 0x00000055#32 with rst := true } = false := by decide

theorem test_placed_word_runs_first :
    (advance (State.reset.withFetchWord 32 0x00000080)).phase = .frame ∧
    (advance (State.reset.withFetchWord 32 0x40000000)).nbytes = .four := by decide

/-! ### Witnesses: the hypotheses of the obligations can be met

Each theorem is named after the obligation whose hypotheses it meets. -/

theorem witness_DecodeEncodeRoundTrip : wellFormed (.setMotor .b (-32768)) = true := by decide

theorem witness_DecodedWordIsEncoding : decode 0x4000FF9C#32 = .ok (.setMotor .a (-100)) := by decide

theorem witness_FrameSlotsLeastSignificantFirst :
    (1 ≤ (8 : Fin 11).val ∧ (8 : Fin 11).val ≤ 8) ∧ (0 : Fin 11).val = 0 ∧ 9 ≤ (9 : Fin 11).val := by
  decide

theorem witness_MotorCommandArithmetic :
    (500 : Int) = (if Motor.a = .a then -(-500) else -500) ∧ (100 : Int) = min |500| 100 ∧
      (255 : Int) = 100 * 255 / 100 := by decide

theorem witness_SpeedByteWrapsAboveHalf :
    |(50 : Int)| ≤ 50 ∧ (51 ≤ |(-51 : Int)| ∧ |(-51 : Int)| ≤ 100) ∧ |(50 : Int)| = 50 ∧
      |(-51 : Int)| = 51 := by decide

theorem witness_MotorsMirrorEachOther : (1 : Int) ≠ 0 ∧ (0 : Int) = 0 := by decide

theorem witness_CommandByteRanges : 100 ≤ |(-100 : Int)| := by decide

theorem witness_MotorDirByteIsAnyValidInstance : Config.MotorDirValid Config.motorDirByteDefault := by
  constructor
  · intro m d
    cases m <;> cases d <;> decide
  · intro m d m' d'
    cases m <;> cases d <;> cases m' <;> cases d' <;> decide

theorem witness_ResetStepFromAnyState : ({ commanding .gap 1 with rst := true } : State).rst = true := by
  decide

theorem witness_ResetCutsRequestShort :
    let s : State := { sending 5 true with rst := true, host := [⟨true, false, 0⟩] }
    s.rst = true ∧ s.reqValid = false ∧ (∀ p ∈ s.host, p.reqValid = false) ∧ 1 ≤ 2 := by decide

theorem witness_RequestsLeaveTheRest :
    exec (.sendByte 0x55#8) State.reset = .next (beginRequest ⟨0x55, 0, 0, 0⟩ .one State.reset) := rfl

theorem witness_StepRunsDecodedRequest :
    (offering 0x40010064#32).phase = .idle ∧ (offering 0x40010064#32).rst = false ∧
    (offering 0x40010064#32).reqValid = true ∧
    decode (offering 0x40010064#32).req = .ok (.setMotor .b 100) := by decide

theorem witness_PlacedRequestRunsNext : wellFormed (.setMotor .a 32767) = true := by decide

theorem witness_IllegalWordIsRefused :
    (offering 0x80000000#32).phase = .idle ∧ (offering 0x80000000#32).rst = false ∧
    (offering 0x80000000#32).reqValid = true ∧
    decode (offering 0x80000000#32).req = .error .reservedOp := by decide

/-- P4: a refused word, then a legal one. -/
theorem witness_RefusalDoesNotStopTheBlock :
    let s : State := { offering 0x80000000#32 with host := [⟨false, true, 0x55#32⟩] }
    let t : State := hostMove true (refuseRequest s)
    step s = .fault (.illegalRequest 0x80000000#32 t) ∧ t.rst = false ∧ t.reqValid = true ∧
      ∃ i, decode t.req = .ok i :=
  ⟨rfl, rfl, rfl, .sendByte 0x55#8, by decide⟩

theorem witness_NextSlotDrivesItsBit :
    (sending 9 true).rst = false ∧ (sending 9 true).phase = .frame ∧ (sending 9 true).slot.val < 10 := by
  decide

theorem witness_EndOfFrame :
    ((sending 10 true).rst = false ∧ (sending 10 true).phase = .frame ∧ (sending 10 true).slot = 10 ∧
      (sending 10 true).bidx.val + 1 = (sending 10 true).nbytes.toNat) ∧
    ((commanding .frame 2).rst = false ∧ (commanding .frame 2).phase = .frame ∧
      (commanding .frame 2).slot = 10 ∧
      (commanding .frame 2).bidx.val + 1 < (commanding .frame 2).nbytes.toNat) := by decide

theorem witness_GapGoesOnOrEnds :
    ((commanding .gap 2).rst = false ∧ (commanding .gap 2).phase = .gap ∧
      (commanding .gap 2).gapLeft = 0 ∧ (commanding .gap 2).bidx.val < 3) ∧
    (({ commanding .gap 2 with gapLeft := 1 } : State).phase = .gap ∧
      0 < ({ commanding .gap 2 with gapLeft := 1 } : State).gapLeft) := by decide

theorem witness_IdleChangesNothing :
    State.reset.rst = false ∧ State.reset.phase = .idle ∧ State.reset.reqValid = false := by decide

theorem witness_BusyBlockIgnoresRequests :
    (sending 3 true).phase ≠ .idle ∧ (commanding .gap 0).phase ≠ .idle := by decide

theorem witness_BytesHeldUntilComplete :
    (commanding .gap 0).rst = false ∧ (commanding .gap 0).phase ≠ .idle ∧
    exec (.setMotor .a 1) State.reset = .next (beginRequest (command .a 1) .four State.reset) :=
  ⟨rfl, by decide, rfl⟩

theorem witness_AssemblerRefusesOutOfRange :
    ((0 : Int) ≤ 4294967295 ∧ (4294967295 : Int) < 2 ^ 32) ∧ (-1 : Int) < 0 ∧
    (2 : Int) ^ 32 ≤ 4294967296 := by decide

/-- Each of the five conditions, the slots where two of them meet among them. -/
theorem witness_ExactlyOneRuleApplies :
    ((offering 0x55#32).rst = false ∧ (offering 0x55#32).phase = .idle ∧
      (offering 0x55#32).reqValid = true) ∧
    ((sending 9 true).rst = false ∧ (sending 9 true).phase = .frame ∧
      (sending 9 true).slot.val < 10) ∧
    ((sending 10 true).rst = false ∧ (sending 10 true).phase = .frame ∧
      (sending 10 true).slot.val = 10) ∧
    ((commanding .gap 2).rst = false ∧ (commanding .gap 2).phase = .gap) ∧
    (State.reset.rst = false ∧ State.reset.phase = .idle ∧ State.reset.reqValid = false) := by
  decide

theorem witness_ReadyExactlyWhenIdle : (commanding .gap 0).rst = false := by decide

theorem witness_StatusFields : 2 ≤ 7 ∧ ({ sending 3 true with rst := true } : State).rst = true := by
  decide

/-- The invariants hold in the middle of a frame. -/
theorem sending_meets_invariants : StateInv (sending 1 true) := by
  constructor <;> decide

/-- The invariants hold in a gap. -/
theorem commanding_meets_invariants : StateInv (commanding .gap 1) := by
  constructor <;> decide

/-- The invariants hold in the reset state with a word offered. -/
theorem offering_meets_invariants (w : RequestWord) : StateInv (offering w) := by
  constructor <;> simp [offering, State.reset]

theorem witness_StepKeepsInvariants :
    (StateInv (sending 1 true) ∧ ∃ t, step (sending 1 true) = .next t) ∧
    (StateInv (offering 0x80000000#32) ∧
      ∃ w t, step (offering 0x80000000#32) = .fault (.illegalRequest w t)) :=
  ⟨⟨sending_meets_invariants, _, rfl⟩, ⟨offering_meets_invariants _, _, _, rfl⟩⟩

theorem witness_ResetEstablishesInvariants :
    ({ sending 1 true with rst := true } : State).rst = true := by decide

theorem witness_LaunchedStatesMeetInvariants :
    Launched (advance (advance { sending 1 true with rst := true })) :=
  .step (.reset rfl) (by decide)

theorem witness_StepIsTheStepRelation :
    BlockStep (commanding .gap 1).rst (commanding .gap 1).reqValid (commanding .gap 1).req
      (commanding .gap 1).block (commanding .gap 1).block :=
  .gapGoesOn rfl

theorem witness_ChoiceOnlyAtGaps :
    ((commanding .frame 0).block.phase = .frame ∧ (commanding .frame 0).block.slot = 10 ∧
      (commanding .frame 0).block.bidx.val + 1 ≠ (commanding .frame 0).block.nbytes.toNat) ∧
    (sending 3 true).block.phase ≠ .gap ∧ (sending 3 true).block.slot ≠ 10 := by decide

theorem witness_LegalRunsNeverFault : LegalWords (offering 0x40000001#32) :=
  ⟨fun _ => ⟨.setMotor .a 1, by decide⟩, by simp [offering, State.reset]⟩

/-- Requests of the same kind with different data, on the port now and in a coming move. -/
theorem witness_HostLearnsNothingOfData :
    SameButData { offering 0x40000001#32 with host := [⟨false, true, 0x00000055#32⟩] }
      { offering 0x40010064#32 with host := [⟨false, true, 0x000000AA#32⟩] } :=
  ⟨rfl, ⟨rfl, rfl, fun _ => by decide⟩, .cons ⟨rfl, rfl, fun _ => by decide⟩ .nil⟩

theorem witness_EveryRequestCompletes :
    StateInv (commanding .gap 1) ∧ NoReset (commanding .gap 1) :=
  ⟨commanding_meets_invariants, by decide, by simp [commanding, State.reset]⟩

theorem witness_DefaultHostKeepsItsDuties :
    (offering 0x55#32).host = [] ∧ consumes (offering 0x55#32) = true := by decide

theorem witness_SendByteSendsItsFrame :
    (offering 0x55#32).phase = .idle ∧ (offering 0x55#32).reqValid = true ∧
    NoReset (offering 0x55#32) ∧ decode (offering 0x55#32).req = .ok (.sendByte 0x55#8) ∧
    (1 ≤ 11 ∧ 11 ≤ 11) :=
  ⟨rfl, rfl, ⟨rfl, by simp [offering, State.reset]⟩, by decide, by decide⟩

theorem witness_SetMotorSendsItsCommand :
    (offering 0x40010064#32).phase = .idle ∧ (offering 0x40010064#32).reqValid = true ∧
    NoReset (offering 0x40010064#32) ∧
    decode (offering 0x40010064#32).req = .ok (.setMotor .b 100) ∧
    ∃ g1 g2 g3, g1 = Config.gapLength (offering 0x40010064#32).draws ∧
      g2 = Config.gapLength ((offering 0x40010064#32).draws + 1) ∧
      g3 = Config.gapLength ((offering 0x40010064#32).draws + 2) :=
  ⟨rfl, rfl, ⟨rfl, by simp [offering, State.reset]⟩, by decide, _, _, _, rfl, rfl, rfl⟩

theorem witness_SendByteRunEnds :
    (offering 0x55#32).phase = .idle ∧ (offering 0x55#32).reqValid = true ∧
    (offering 0x55#32).rst = false ∧ (offering 0x55#32).host = [] ∧
    decode (offering 0x55#32).req = .ok (.sendByte 0x55#8) := by decide

theorem witness_TenTicksAreOneSlot :
    (sending 3 true).phase = .frame ∧ (sending 3 true).tick = 0 ∧ NoReset (sending 3 true) ∧ 9 < 10 :=
  ⟨rfl, rfl, ⟨rfl, by simp [sending, State.reset]⟩, by decide⟩

theorem witness_OtherEdgesAreSteps :
    (offering 0x55#32).phase ≠ .frame ∧ consumes (offering 0x55#32) = true ∧
    consumes (offering 0x80000000#32) = true ∧
    ({ sending 3 true with rst := true } : State).rst = true := by decide

theorem witness_ClockKeepsTickInvariant : TickInv State.reset ∧ TickInv (sending 3 true) :=
  ⟨fun _ => rfl, fun _ => rfl⟩

theorem witness_TimedSendByteLevels :
    (offering 0xFF#32).phase = .idle ∧ (offering 0xFF#32).reqValid = true ∧
    NoReset (offering 0xFF#32) ∧ decode (offering 0xFF#32).req = .ok (.sendByte 0xFF#8) :=
  ⟨rfl, rfl, ⟨rfl, by simp [offering, State.reset]⟩, by decide⟩

end Sys2Proof.Tests
end

