-- ==== Sys2Proof/Proofs/MotorDirByte.lean ====
section
/-! The open parameter `MOTOR_DIR_BYTE` and its coding as a table (spec/00_scope.md rule R10,
spec/30_encoding.md rule R80, log 3). -/

namespace Sys2Proof.Config

/-! ### What a table of seven-bit values stands for -/

/-- The pairs of motor and direction, in the order in which `tableDistinct` lists their values. -/
def motorDirPairs : List (Motor × Dir) := [(.a, .fwd), (.a, .rev), (.b, .fwd), (.b, .rev)]

@[simp] theorem mem_motorDirPairs (m : Motor) (d : Dir) : (m, d) ∈ motorDirPairs := by
  cases m <;> cases d <;> decide

theorem tableDistinct_iff_nodup_map (t : Motor → Dir → BitVec 7) :
    tableDistinct t = true ↔ (motorDirPairs.map (Function.uncurry t)).Nodup :=
  decide_eq_true_iff

/-- The check on a table is R10's condition (b). -/
theorem tableDistinct_iff (t : Motor → Dir → BitVec 7) :
    tableDistinct t = true ↔ ∀ m d m' d', t m d = t m' d' → m = m' ∧ d = d' := by
  have hpairs : motorDirPairs.Nodup := by decide
  rw [tableDistinct_iff_nodup_map, List.nodup_map_iff_inj_on hpairs]
  simp [Prod.forall]

theorem motorDirOfTable_of_distinct {t : Motor → Dir → BitVec 7} (ht : tableDistinct t = true) :
    motorDirOfTable t = fun m d => 0#1 ++ t m d := by
  funext m d
  simp [motorDirOfTable, ht]

theorem motorDirOfTable_of_repeat {t : Motor → Dir → BitVec 7} (ht : ¬ tableDistinct t = true) :
    motorDirOfTable t = motorDirByteDefault := by
  funext m d
  simp [motorDirOfTable, ht]

/-! ### Bytes with bit 7 clear and their seven low bits -/

theorem zero_append_getLsbD_seven (v : BitVec 7) : (0#1 ++ v).getLsbD 7 = false := by
  rw [BitVec.getLsbD_append]
  simp

theorem zero_append_setWidth {b : Byte} (hb : b.getLsbD 7 = false) : 0#1 ++ b.setWidth 7 = b := by
  refine BitVec.eq_of_getLsbD_eq fun i hi => ?_
  rw [BitVec.getLsbD_append, BitVec.getLsbD_setWidth]
  by_cases hlow : i < 7
  · simp [hlow]
  · obtain rfl : i = 7 := by omega
    simpa using hb.symm

/-- The table of a byte function: the seven low bits of each byte. -/
def tableOf (f : Motor → Dir → Byte) (m : Motor) (d : Dir) : BitVec 7 := (f m d).setWidth 7

theorem zero_append_tableOf {f : Motor → Dir → Byte} (hf : MotorDirValid f) (m : Motor) (d : Dir) :
    0#1 ++ tableOf f m d = f m d :=
  zero_append_setWidth (hf.1 m d)

theorem tableOf_distinct {f : Motor → Dir → Byte} (hf : MotorDirValid f) :
    tableDistinct (tableOf f) = true := by
  refine (tableDistinct_iff _).2 fun m d m' d' heq => hf.2 m d m' d' ?_
  rw [← zero_append_tableOf hf m d, heq, zero_append_tableOf hf m' d']

/-! ### Validity of the three byte functions -/

theorem motorDirByteDefault_valid : MotorDirValid motorDirByteDefault := by
  refine ⟨fun m d => ?_, fun m d m' d' => ?_⟩
  · cases m <;> cases d <;> rfl
  · cases m <;> cases d <;> cases m' <;> cases d' <;> decide

theorem motorDirOfTable_valid (t : Motor → Dir → BitVec 7) : MotorDirValid (motorDirOfTable t) := by
  by_cases ht : tableDistinct t = true
  · rw [motorDirOfTable_of_distinct ht]
    refine ⟨fun m d => zero_append_getLsbD_seven (t m d), fun m d m' d' heq => ?_⟩
    exact (tableDistinct_iff t).1 ht m d m' d' ((BitVec.append_right_inj 0#1).1 heq)
  · rw [motorDirOfTable_of_repeat ht]
    exact motorDirByteDefault_valid

theorem motorDirByte_valid : MotorDirValid motorDirByte :=
  motorDirOfTable_valid motorDirTable

/-- Every valid byte function is the function of its own table. -/
theorem motorDirOfTable_tableOf {f : Motor → Dir → Byte} (hf : MotorDirValid f) :
    motorDirOfTable (tableOf f) = f := by
  rw [motorDirOfTable_of_distinct (tableOf_distinct hf)]
  funext m d
  exact zero_append_tableOf hf m d

end Sys2Proof.Config

namespace Sys2Proof

/-- Settles O16: the byte function of any table is valid, and a valid byte function is given back
by the table of its seven low bits. -/
theorem motorDirByteIsAnyValidInstance : Obligations.MotorDirByteIsAnyValidInstance :=
  ⟨Config.motorDirByte_valid,
    fun f hf => ⟨Config.tableOf f, Config.motorDirOfTable_tableOf hf⟩,
    Config.motorDirByteDefault_valid⟩

end Sys2Proof
end

