-- ==== Sys2Proof/Proofs/Advance.lean ====
section
/-! What the block goes on to in one step, rule by rule (spec/40_serial_transmitter.md rules R99 to
R107, spec/60_exceptions.md rules R161, R162): `advance` by its conditions, so that no later proof
asks whether the outcome was a next state or a fault. -/

namespace Sys2Proof.Machine

/-! ### The request a word decodes to -/

/-- The bytes that accepting a request puts into `buf` (R100, R130). -/
def requestBytes (i : Instr) (s : State) : Buf :=
  match i with
  | .sendByte data => { s.buf with b0 := data }
  | .setMotor motor speed => command motor speed

/-- How many bytes a request sends (R100, R130). -/
def requestCount (i : Instr) : ByteCount :=
  match i with
  | .sendByte _ => .one
  | .setMotor _ _ => .four

theorem exec_eq_beginRequest (i : Instr) (s : State) :
    exec i s = .next (beginRequest (requestBytes i s) (requestCount i) s) := by
  cases i <;> rfl

theorem requestKind_of_error {w : RequestWord} {e : DecodeError} (hd : decode w = .error e) :
    requestKind w = .illegal := by
  simp [requestKind, hd]

theorem requestKind_ne_illegal {w : RequestWord} {i : Instr} (hd : decode w = .ok i) :
    requestKind w ≠ .illegal := by
  cases i <;> simp [requestKind, hd]

/-- Words of one kind are both refused, or both accepted with the same number of bytes. -/
theorem decode_cases_of_requestKind_eq {v w : RequestWord} (h : requestKind v = requestKind w) :
    (∃ i j, decode v = .ok i ∧ decode w = .ok j ∧ requestCount i = requestCount j) ∨
    (∃ d e, decode v = .error d ∧ decode w = .error e) := by
  cases hv : decode v with
  | error d =>
    cases hw : decode w with
    | error e => exact .inr ⟨d, e, rfl, rfl⟩
    | ok j => exact absurd (h.symm.trans (requestKind_of_error hv)) (requestKind_ne_illegal hw)
  | ok i =>
    cases hw : decode w with
    | error e => exact absurd (h.trans (requestKind_of_error hw)) (requestKind_ne_illegal hv)
    | ok j =>
      refine .inl ⟨i, j, rfl, rfl, ?_⟩
      cases i <;> cases j <;> simp [requestKind, hv, hw] at h <;> rfl

/-! ### One step, by the rule that applies -/

section

variable {s : State}

theorem advance_of_reset (hr : s.rst = true) : advance s = hostMove false (resetBlock s) :=
  advance_of_next (slotStep_reset hr)

theorem advance_of_nextSlot (hr : s.rst = false) (hp : s.phase = .frame) (hs : s.slot.val < 10) :
    advance s = hostMove false (nextSlot s) :=
  advance_of_next (slotStep_nextSlot hr hp hs)

theorem advance_of_endFrame (hr : s.rst = false) (hp : s.phase = .frame) (hs : s.slot = 10) :
    advance s = hostMove false (endFrame (Config.gapLength s.draws) s) :=
  advance_of_next (slotStep_endFrame hr hp hs)

theorem advance_of_gap (hr : s.rst = false) (hp : s.phase = .gap) :
    advance s = hostMove false (gapStep s) :=
  advance_of_next (slotStep_gap hr hp)

theorem advance_of_idle (hr : s.rst = false) (hp : s.phase = .idle) (hv : s.reqValid = false) :
    advance s = hostMove false s :=
  advance_of_next (slotStep_idle hr hp hv)

theorem advance_of_accept {i : Instr} (hr : s.rst = false) (hp : s.phase = .idle)
    (hv : s.reqValid = true) (hd : decode s.req = .ok i) :
    advance s = hostMove true (beginRequest (requestBytes i s) (requestCount i) s) :=
  advance_of_next (slotStep_accept hr hp hv hd (exec_eq_beginRequest i s))

theorem advance_of_refuse {e : DecodeError} (hr : s.rst = false) (hp : s.phase = .idle)
    (hv : s.reqValid = true) (hd : decode s.req = .error e) :
    advance s = hostMove true (refuseRequest s) :=
  advance_of_fault (slotStep_refuse hr hp hv hd)

end

/-- INVERSION: the condition of one of the rules holds (R166, R107); its `advance_of_` lemma says
what the step does. -/
theorem stepCondition_cases (s : State) :
    s.rst = true ∨
    (s.rst = false ∧ s.phase = .frame ∧ s.slot.val < 10) ∨
    (s.rst = false ∧ s.phase = .frame ∧ s.slot = 10) ∨
    (s.rst = false ∧ s.phase = .gap) ∨
    (s.rst = false ∧ s.phase = .idle ∧ s.reqValid = false) ∨
    (s.rst = false ∧ s.phase = .idle ∧ s.reqValid = true ∧ ∃ i, decode s.req = .ok i) ∨
    (s.rst = false ∧ s.phase = .idle ∧ s.reqValid = true ∧ ∃ e, decode s.req = .error e) := by
  cases hr : s.rst
  · cases hp : s.phase
    · cases s.reqValid
      · simp
      · cases decode s.req <;> simp
    · simpa using slot_lt_or_last s
    · simp
  · simp

end Sys2Proof.Machine
end

