-- ==== Sys2Proof/Proofs/StateInvariants.lean ====
section
/-! The state invariants of spec/10_state.md rule R26: every update of the state that the sequencer
makes keeps them in the phase in which it makes it, so every step does. -/

namespace Sys2Proof.Machine

/-- The invariants speak of the block alone. -/
theorem StateInv.of_block_eq {s t : State} (h : StateInv s) (hb : t.block = s.block) :
    StateInv t := by
  simp only [State.block, Block.mk.injEq] at hb
  obtain ⟨htx, hphase, hbuf, hnbytes, hbidx, hslot, -⟩ := hb
  constructor <;> simp only [htx, hphase, hbuf, hnbytes, hbidx, hslot]
  exacts [h.idle_mark, h.gap_form, h.frame_form, h.one_byte, h.command_form]

theorem StateInv.hostMove {s : State} (h : StateInv s) (c : Bool) : StateInv (hostMove c s) :=
  h.of_block_eq (hostMove_block c s)

theorem stateInv_resetBlock (s : State) : StateInv (resetBlock s) := by
  constructor <;> simp

/-! ### Acceptance and refusal -/

theorem speedByte_getLsbD_seven (ds : Nat) : (speedByte ds).getLsbD 7 = false := by
  refine Nat.testBit_lt_two_pow (i := 7) ?_
  rw [speedByte_toNat]
  omega

/-- An accepted request starts a frame of its first byte; a command's fixed bytes are R131's. -/
theorem stateInv_beginRequest (i : Instr) (s : State) :
    StateInv (beginRequest (requestBytes i s) (requestCount i) s) where
  idle_mark := by simp
  gap_form := by simp
  frame_form _ := by cases i <;> simp [requestCount]
  one_byte _ := rfl
  command_form hn _ := by
    cases i with
    | sendByte d => simp [requestCount] at hn
    | setMotor m v => exact ⟨rfl, rfl, speedByte_getLsbD_seven _⟩

theorem StateInv.refuseRequest {s : State} (h : StateInv s) : StateInv (refuseRequest s) :=
  ⟨h.idle_mark, h.gap_form, h.frame_form, h.one_byte, h.command_form⟩

/-! ### Inside a request -/

section

variable {s : State} (h : StateInv s)
include h

theorem StateInv.nextSlot (hp : s.phase = .frame) : StateInv (nextSlot s) where
  idle_mark := by simp [hp]
  gap_form := by simp [hp]
  frame_form _ := by
    obtain ⟨hn, hb, -⟩ := h.frame_form hp
    exact ⟨hn, hb, rfl⟩
  one_byte := h.one_byte
  command_form := h.command_form

/-- The last slot of a frame is a stop bit. -/
theorem StateInv.tx_of_last_slot (hp : s.phase = .frame) (hs : s.slot = 10) : s.tx = true := by
  obtain ⟨-, -, htx⟩ := h.frame_form hp
  rw [htx, hs, frameLevel_stop]
  decide

/-- Only a command has a byte to follow, and `bidx` has room for it. -/
theorem StateInv.command_of_more (hp : s.phase = .frame)
    (hmore : s.bidx.val + 1 ≠ s.nbytes.toNat) : s.nbytes = .four ∧ s.bidx.val < 3 := by
  obtain ⟨hn | hn, hb, -⟩ := h.frame_form hp <;> rw [hn] at hb hmore <;> simp at hb hmore
  · exact absurd hb hmore
  · exact ⟨hn, by omega⟩

theorem StateInv.finishRequest (hp : s.phase = .frame) (hs : s.slot = 10) :
    StateInv (finishRequest s) where
  idle_mark _ := h.tx_of_last_slot hp hs
  gap_form := by simp
  frame_form := by simp
  one_byte _ := rfl
  command_form := by simp

theorem StateInv.startNextFrame (hp : s.phase ≠ .idle) (hn : s.nbytes = .four)
    (hb : s.bidx.val < 3) : StateInv (startNextFrame s) where
  idle_mark := by simp
  gap_form := by simp
  frame_form _ := by
    refine ⟨.inr hn, ?_, rfl⟩
    rw [startNextFrame_bidx, startNextFrame_nbytes, bidx_succ_val _ hb, hn]
    exact Nat.succ_lt_succ hb
  one_byte := by simp [hn]
  command_form _ _ := h.command_form hn hp

theorem StateInv.enterGap (more : Nat) (hp : s.phase = .frame) (hs : s.slot = 10)
    (hn : s.nbytes = .four) (hb : s.bidx.val < 3) : StateInv (enterGap more s) where
  idle_mark := by simp
  gap_form _ := ⟨h.tx_of_last_slot hp hs, hs, hn, hb⟩
  frame_form := by simp
  one_byte := h.one_byte
  command_form _ _ := h.command_form hn (by simp [hp])

theorem StateInv.noteDraw : StateInv (noteDraw s) := h.of_block_eq rfl

theorem StateInv.holdGap (more : Nat) : StateInv (holdGap more s) := h.of_block_eq rfl

theorem StateInv.endFrame (gap : Nat) (hp : s.phase = .frame) (hs : s.slot = 10) :
    StateInv (endFrame gap s) := by
  obtain ⟨-, e⟩ | ⟨hmore, -, e⟩ | ⟨hmore, more, -, e⟩ := endFrame_cases gap s <;> rw [e]
  · exact h.finishRequest hp hs
  · obtain ⟨hn, hb⟩ := h.command_of_more hp hmore
    exact h.noteDraw.startNextFrame (by simp [hp]) hn hb
  · obtain ⟨hn, hb⟩ := h.command_of_more hp hmore
    exact h.noteDraw.enterGap more hp hs hn hb

theorem StateInv.gapStep (hp : s.phase = .gap) : StateInv (gapStep s) := by
  obtain ⟨-, -, hn, hb⟩ := h.gap_form hp
  obtain ⟨more, -, e⟩ | ⟨-, e⟩ := gapStep_cases s <;> rw [e]
  · exact h.holdGap more
  · exact h.startNextFrame (by simp [hp]) hn hb

end

/-! ### Every step -/

theorem stateInv_advance_of_reset {s : State} (hr : s.rst = true) : StateInv (advance s) := by
  rw [advance_of_reset hr]
  exact (stateInv_resetBlock s).hostMove false

theorem StateInv.advance {s : State} (h : StateInv s) : StateInv (advance s) := by
  obtain hr | ⟨hr, hp, hs⟩ | ⟨hr, hp, hs⟩ | ⟨hr, hp⟩ | ⟨hr, hp, hv⟩ | ⟨hr, hp, hv, i, hd⟩ |
    ⟨hr, hp, hv, e, hd⟩ := stepCondition_cases s
  · exact stateInv_advance_of_reset hr
  · rw [advance_of_nextSlot hr hp hs]
    exact (h.nextSlot hp).hostMove false
  · rw [advance_of_endFrame hr hp hs]
    exact (h.endFrame _ hp hs).hostMove false
  · rw [advance_of_gap hr hp]
    exact (h.gapStep hp).hostMove false
  · rw [advance_of_idle hr hp hv]
    exact h.hostMove false
  · rw [advance_of_accept hr hp hv hd]
    exact (stateInv_beginRequest i s).hostMove true
  · rw [advance_of_refuse hr hp hv hd]
    exact h.refuseRequest.hostMove true

theorem Launched.stateInv {s : State} (h : Launched s) : StateInv s := by
  induction h with
  | reset hr => exact stateInv_advance_of_reset hr
  | step _ _ ih => exact ih.advance

end Sys2Proof.Machine

namespace Sys2Proof

open Machine

/-- Settles O36: a step answers the state that the block goes on from, and so does a fault. -/
theorem stepKeepsInvariants : Obligations.StepKeepsInvariants :=
  ⟨fun _ _ h hstep => advance_of_next hstep ▸ h.advance,
    fun _ _ _ h hstep => advance_of_fault hstep ▸ h.advance⟩

/-- Settles O37: the reset state is itself a block after reset. -/
theorem resetEstablishesInvariants : Obligations.ResetEstablishesInvariants :=
  ⟨(stateInv_resetBlock State.reset).of_block_eq rfl, fun _ hr => stateInv_advance_of_reset hr⟩

/-- Settles O38, by induction on the launch: its reset step establishes the invariants and every
step after it keeps them. -/
theorem launchedStatesMeetInvariants : Obligations.LaunchedStatesMeetInvariants :=
  fun _ h => h.stateInv

end Sys2Proof
end

