-- ==== Sys2Proof/Proofs/Status.lean ====
section
/-! What the host reads (spec/10_state.md rules R27, R28, R31): the bits of STATUS, `req_ready`, and
what a step does to STATUS.ILLEGAL. -/

namespace Sys2Proof.Machine

/-! ### The bits of STATUS and `req_ready` -/

theorem busy_eq_true_iff (s : State) : busy s = true ↔ s.phase = .frame ∨ s.phase = .gap := by
  cases hp : s.phase <;> simp [busy, hp]

theorem reqReady_eq_true_iff (s : State) :
    reqReady s = true ↔ s.phase = .idle ∧ s.rst = false := by
  simp [reqReady]

theorem reqReady_of_rst_low {s : State} (hr : s.rst = false) : reqReady s = !busy s := by
  simp [reqReady, busy, hr]

theorem status_getLsbD_zero (s : State) : (status s).getLsbD 0 = busy s := by
  rw [status, BitVec.getLsbD_append]
  simp

theorem status_getLsbD_one (s : State) : (status s).getLsbD 1 = s.illegal := by
  rw [status, BitVec.getLsbD_append, BitVec.getLsbD_append]
  simp

theorem status_getLsbD_of_two_le (s : State) {i : Nat} (hi : 2 ≤ i) :
    (status s).getLsbD i = false := by
  have hbusy : ¬ i < 1 := by omega
  have hillegal : ¬ i - 1 < 1 := by omega
  rw [status, BitVec.getLsbD_append, BitVec.getLsbD_append]
  simp [hbusy, hillegal]

theorem status_eq_zero {s : State} (hp : s.phase = .idle) (hi : s.illegal = false) :
    status s = 0x00#8 := by
  simp [status, busy, hp, hi]

/-! ### What a step does to STATUS.ILLEGAL -/

@[simp] theorem endFrame_illegal (gap : Nat) (s : State) : (endFrame gap s).illegal = s.illegal := by
  obtain ⟨-, e⟩ | ⟨-, -, e⟩ | ⟨-, _, -, e⟩ := endFrame_cases gap s <;> simp [e]

@[simp] theorem gapStep_illegal (s : State) : (gapStep s).illegal = s.illegal := by
  obtain ⟨_, -, e⟩ | ⟨-, e⟩ := gapStep_cases s <;> simp [e]

/-- Only a reset clears ILLEGAL, and only the consumption of an illegal word sets it (R28, R161). -/
theorem illegal_advance (s : State) :
    (advance s).illegal =
      (!s.rst && (s.illegal || (consumes s && decide (requestKind s.req = .illegal)))) := by
  obtain hr | ⟨hr, hp, hs⟩ | ⟨hr, hp, hs⟩ | ⟨hr, hp⟩ | ⟨hr, hp, hv⟩ | ⟨hr, hp, hv, i, hd⟩ |
    ⟨hr, hp, hv, e, hd⟩ := stepCondition_cases s
  · simp [advance_of_reset hr, hr]
  · simp [advance_of_nextSlot hr hp hs, consumes, reqReady, hr, hp]
  · simp [advance_of_endFrame hr hp hs, consumes, reqReady, hr, hp]
  · simp [advance_of_gap hr hp, consumes, reqReady, hr, hp]
  · simp [advance_of_idle hr hp hv, consumes, hr, hv]
  · simp [advance_of_accept hr hp hv hd, hr, requestKind_ne_illegal hd]
  · simp [advance_of_refuse hr hp hv hd, consumes, reqReady, hr, hp, hv, requestKind_of_error hd]

theorem status_advance_of_reset {s : State} (hr : s.rst = true) : status (advance s) = 0x00#8 := by
  rw [advance_of_reset hr]
  exact status_eq_zero (by simp) (by simp)

end Sys2Proof.Machine

namespace Sys2Proof

open Machine

/-- Settles O35, field by field. -/
theorem statusFields : Obligations.StatusFields := by
  intro s
  refine ⟨?_, status_getLsbD_one s, fun _ => status_getLsbD_of_two_le s, ?_,
    status_advance_of_reset⟩
  · rw [status_getLsbD_zero, busy_eq_true_iff]
  · rw [status_getLsbD_one, status_getLsbD_one, illegal_advance]

/-- Settles O34. -/
theorem readyExactlyWhenIdle : Obligations.ReadyExactlyWhenIdle := by
  refine fun s => ⟨reqReady_eq_true_iff s, fun hr => ?_⟩
  rw [status_getLsbD_zero, reqReady_of_rst_low hr, Bool.not_not]

/-- Settles O18: the elements of R23 and `tick` have R31's values by definition, and STATUS and
`req_ready` follow from the phase, ILLEGAL and `rst`. -/
theorem resetValues : Obligations.ResetValues :=
  ⟨rfl, rfl, rfl, rfl, rfl, rfl, rfl, rfl, status_eq_zero rfl rfl,
    (reqReady_eq_true_iff _).2 ⟨rfl, rfl⟩⟩

end Sys2Proof
end

