-- ==== Sys2Proof/Proofs/DataIndependence.lean ====
section
/-! What the host can read does not depend on the data sent (spec/10_state.md rules R24, R30): the
relation of two states alike but for data, field by field, and that every update of the state, and
so every step, keeps it. -/

namespace Sys2Proof.Machine

/-- Two states alike in everything but data, field by field: `SameButData` with its record equation
taken apart (`sameButData_iff_alike`). -/
structure Alike (s t : State) : Prop where
  phase : s.phase = t.phase
  nbytes : s.nbytes = t.nbytes
  bidx : s.bidx = t.bidx
  slot : s.slot = t.slot
  illegal : s.illegal = t.illegal
  tick : s.tick = t.tick
  gapLeft : s.gapLeft = t.gapLeft
  draws : s.draws = t.draws
  ports : SamePortsButData s.ports t.ports
  host : List.Forall₂ SamePortsButData s.host t.host

theorem sameButData_iff_alike (s t : State) : SameButData s t ↔ Alike s t := by
  constructor
  · rintro ⟨hfields, hports, hhost⟩
    have hfield {α : Type} (f : State → α) := congrArg f hfields
    exact ⟨hfield State.phase, hfield State.nbytes, hfield State.bidx, hfield State.slot,
      hfield State.illegal, hfield State.tick, hfield State.gapLeft, hfield State.draws,
      hports, hhost⟩
  · intro h
    refine ⟨?_, h.ports, h.host⟩
    obtain ⟨hrst, hvalid, -⟩ := h.ports
    cases t
    rw [State.mk.injEq]
    exact ⟨rfl, h.phase, rfl, h.nbytes, h.bidx, h.slot, h.illegal, h.tick, hrst, hvalid, rfl, rfl,
      h.gapLeft, h.draws⟩

namespace Alike

variable {s t : State} (h : Alike s t)
include h

/-! ### What the host reads -/

theorem rst : s.rst = t.rst := h.ports.1

theorem reqValid : s.reqValid = t.reqValid := h.ports.2.1

theorem requestKind_eq (hv : s.reqValid = true) : requestKind s.req = requestKind t.req :=
  h.ports.2.2 hv

theorem status_eq : status s = status t := by
  simp only [status, busy, h.phase, h.illegal]

theorem reqReady_eq : reqReady s = reqReady t := by
  simp only [reqReady, h.phase, h.rst]

theorem consumes_eq : consumes s = consumes t := by
  simp only [consumes, h.reqValid, h.reqReady_eq]

/-! ### The updates of the state -/

theorem resetBlock : Alike (resetBlock s) (resetBlock t) :=
  ⟨rfl, rfl, rfl, rfl, rfl, rfl, rfl, h.draws, h.ports, h.host⟩

/-- The bytes of the two requests may differ; their number may not. -/
theorem beginRequest (b b' : Buf) (n : ByteCount) :
    Alike (beginRequest b n s) (beginRequest b' n t) :=
  ⟨rfl, rfl, rfl, rfl, h.illegal, h.tick, h.gapLeft, h.draws, h.ports, h.host⟩

theorem refuseRequest : Alike (refuseRequest s) (refuseRequest t) :=
  { h with illegal := rfl }

theorem nextSlot : Alike (nextSlot s) (nextSlot t) :=
  { h with slot := congrArg (· + 1) h.slot }

theorem finishRequest : Alike (finishRequest s) (finishRequest t) :=
  { h with phase := rfl, bidx := rfl, slot := rfl }

theorem startNextFrame : Alike (startNextFrame s) (startNextFrame t) :=
  { h with phase := rfl, bidx := congrArg (· + 1) h.bidx, slot := rfl }

theorem enterGap (more : Nat) : Alike (enterGap more s) (enterGap more t) :=
  { h with phase := rfl, gapLeft := rfl }

theorem holdGap (more : Nat) : Alike (holdGap more s) (holdGap more t) :=
  { h with gapLeft := rfl }

theorem noteDraw : Alike (noteDraw s) (noteDraw t) :=
  { h with draws := congrArg (· + 1) h.draws }

theorem endFrame (gap : Nat) : Alike (endFrame gap s) (endFrame gap t) := by
  obtain ⟨hlast, e⟩ | ⟨hmore, rfl, e⟩ | ⟨hmore, more, rfl, e⟩ := endFrame_cases gap s <;> rw [e]
  · rw [h.bidx, h.nbytes] at hlast
    rw [endFrame_last gap hlast]
    exact h.finishRequest
  · rw [h.bidx, h.nbytes] at hmore
    rw [endFrame_next hmore]
    exact h.noteDraw.startNextFrame
  · rw [h.bidx, h.nbytes] at hmore
    rw [endFrame_gap more hmore]
    exact h.noteDraw.enterGap more

theorem gapStep : Alike (gapStep s) (gapStep t) := by
  obtain ⟨more, hs, es⟩ | ⟨hs, es⟩ := gapStep_cases s <;>
    obtain ⟨more', ht, et⟩ | ⟨ht, et⟩ := gapStep_cases t <;> rw [es, et]
  · obtain rfl : more = more' := Nat.succ.inj (hs.symm.trans (h.gapLeft.trans ht))
    exact h.holdGap more
  · exact absurd (hs.symm.trans (h.gapLeft.trans ht)) (Nat.succ_ne_zero more)
  · exact absurd (ht.symm.trans (h.gapLeft.symm.trans hs)) (Nat.succ_ne_zero more')
  · exact h.startNextFrame

/-- The host's move: both lists end together, and their next entries are alike. -/
theorem hostMove (c : Bool) : Alike (hostMove c s) (hostMove c t) := by
  have hhost := h.host
  cases hs : s.host with
  | nil =>
    have ht : t.host = [] := by simpa [hs] using hhost
    rw [hostMove_nil s c hs, hostMove_nil t c ht]
    refine { h with ports := ⟨rfl, ?_, fun hv => h.requestKind_eq ?_⟩ }
    · simp [State.ports, h.reqValid]
    · exact (Bool.and_eq_true_iff.1 hv).1
  | cons p rest =>
    rw [hs] at hhost
    obtain ⟨q, rest', hpq, hrest, ht⟩ := List.forall₂_cons_left_iff.1 hhost
    rw [hostMove_cons s c p rest hs, hostMove_cons t c q rest' ht]
    exact { h with ports := hpq, host := hrest }

/-! ### Every step -/

/-- Offered words of one kind are both refused, or begin requests of the same number of bytes. -/
theorem advance_of_offer (hr : s.rst = false) (hp : s.phase = .idle) (hv : s.reqValid = true) :
    Alike (advance s) (advance t) := by
  have hrt : t.rst = false := h.rst ▸ hr
  have hpt : t.phase = .idle := h.phase ▸ hp
  have hvt : t.reqValid = true := h.reqValid ▸ hv
  obtain ⟨i, j, hs, ht, hcount⟩ | ⟨d, e, hs, ht⟩ :=
    decode_cases_of_requestKind_eq (h.requestKind_eq hv)
  · rw [advance_of_accept hr hp hv hs, advance_of_accept hrt hpt hvt ht, hcount]
    exact (h.beginRequest _ _ _).hostMove true
  · rw [advance_of_refuse hr hp hv hs, advance_of_refuse hrt hpt hvt ht]
    exact h.refuseRequest.hostMove true

/-- The rule that applies is the same in both states, since no rule's condition reads data. -/
theorem advance : Alike (advance s) (advance t) := by
  obtain hr | ⟨hr, hp, hs⟩ | ⟨hr, hp, hs⟩ | ⟨hr, hp⟩ | ⟨hr, hp, hv⟩ | ⟨hr, hp, hv, -⟩ |
    ⟨hr, hp, hv, -⟩ := stepCondition_cases s
  · rw [advance_of_reset hr, advance_of_reset (h.rst ▸ hr)]
    exact h.resetBlock.hostMove false
  · rw [advance_of_nextSlot hr hp hs,
      advance_of_nextSlot (h.rst ▸ hr) (h.phase ▸ hp) (h.slot ▸ hs)]
    exact h.nextSlot.hostMove false
  · rw [advance_of_endFrame hr hp hs,
      advance_of_endFrame (h.rst ▸ hr) (h.phase ▸ hp) (h.slot ▸ hs), h.draws]
    exact (h.endFrame _).hostMove false
  · rw [advance_of_gap hr hp, advance_of_gap (h.rst ▸ hr) (h.phase ▸ hp)]
    exact h.gapStep.hostMove false
  · rw [advance_of_idle hr hp hv, advance_of_idle (h.rst ▸ hr) (h.phase ▸ hp) (h.reqValid ▸ hv)]
    exact h.hostMove false
  · exact h.advance_of_offer hr hp hv
  · exact h.advance_of_offer hr hp hv

theorem advanceN (n : Nat) : Alike (advanceN n s) (advanceN n t) := by
  induction n generalizing s t with
  | zero => exact h
  | succ n ih => exact ih h.advance

end Alike

end Sys2Proof.Machine

namespace Sys2Proof

open Machine

/-- Settles O44: the two runs stay alike, by induction on the number of steps, and alike states
read alike. -/
theorem hostLearnsNothingOfData : Obligations.HostLearnsNothingOfData := by
  intro s t n h
  have hn := ((sameButData_iff_alike s t).1 h).advanceN n
  exact ⟨(sameButData_iff_alike _ _).2 hn, hn.status_eq, hn.reqReady_eq, hn.consumes_eq⟩

end Sys2Proof
end

