-- ==== Sys2Proof/Proofs/FrameSlots.lean ====
section
/-! The slots of a frame, one by one and as the bits of a word (spec/20_memory.md rule R52,
spec/30_encoding.md rules R76, R77). -/

namespace Sys2Proof.Machine

/-- Data slot `k`, from 1 to 8, carries bit `k - 1`. -/
theorem frameLevel_of_data_slot (b : Byte) (k : Fin 11) (h1 : 1 ≤ k.val) (h8 : k.val ≤ 8) :
    frameLevel b k = b.getLsbD (k.val - 1) :=
  frameLevel_data b ⟨k.val - 1, by omega⟩ k (Nat.sub_add_cancel h1).symm

/-- `0x600` holds the stop bits alone. -/
theorem stopBits_getLsbD (k : Fin 11) : (0x600#11).getLsbD k.val = decide (9 ≤ k.val) := by
  decide +revert

/-- Above bit 0, the byte moved up by one has bit `k - 1` of the byte at bit `k`. -/
theorem byteShifted_getLsbD (b : Byte) (k : Fin 11) :
    (b.setWidth 11 <<< 1).getLsbD k.val = (decide (1 ≤ k.val) && b.getLsbD (k.val - 1)) := by
  by_cases h1 : 1 ≤ k.val
  · simp [h1, Nat.not_lt.mpr h1]
  · simp [h1, Nat.lt_of_not_le h1]

/-- Each part of the frame is one part of R77's word: the start bit is the 0 that the shift brings
in, the data bits are the byte, and beyond the byte only the stop bits are left. -/
theorem frameLevel_eq_getLsbD (b : Byte) (k : Fin 11) :
    frameLevel b k = (0x600#11 ||| (b.setWidth 11 <<< 1)).getLsbD k.val := by
  rw [BitVec.getLsbD_or, stopBits_getLsbD, byteShifted_getLsbD]
  obtain rfl | ⟨h1, h8⟩ | h9 : k = 0 ∨ (1 ≤ k.val ∧ k.val ≤ 8) ∨ 9 ≤ k.val := by omega
  · simp
  · have notStop : ¬ 9 ≤ k.val := by omega
    simp [frameLevel_of_data_slot b k h1 h8, h1, notStop]
  · simp [frameLevel_stop b k h9, h9]

end Sys2Proof.Machine

namespace Sys2Proof

open Machine

/-- Settles O10: the levels of the data, start and stop slots, and the word they are bits of. -/
theorem frameSlotsLeastSignificantFirst : Obligations.FrameSlotsLeastSignificantFirst := by
  intro b k
  refine ⟨frameLevel_of_data_slot b k, ?_, frameLevel_stop b k, frameLevel_eq_getLsbD b k⟩
  intro h0
  obtain rfl : k = 0 := Fin.ext h0
  exact frameLevel_start b

end Sys2Proof
end

