-- ==== Sys2Proof/Proofs/RequestWords.lean ====
section
/-! The decoder and the encoder of request words (spec/30_encoding.md rules R70 to R75, R84): which
words decode to which request or are refused by which name, the two formats as words under a mask,
and how many words each format has. -/

namespace Sys2Proof

/-! ### The decoder, result by result -/

theorem decode_eq_sendByte_iff (w : RequestWord) (d : Byte) :
    decode w = .ok (.sendByte d) ↔
      opField w = 0b00#2 ∧ w.extractLsb' 8 22 = 0#22 ∧ dataField w = d := by
  unfold decode
  split_ifs <;> simp_all

theorem decode_eq_setMotor_iff (w : RequestWord) (m : Motor) (v : Int) :
    decode w = .ok (.setMotor m v) ↔
      opField w = 0b01#2 ∧ w.extractLsb' 17 13 = 0#13 ∧
        motorOfBit (motorField w) = m ∧ sext16 (speedField w) = v := by
  unfold decode
  split_ifs <;> simp_all

theorem decode_eq_reservedOp_iff (w : RequestWord) :
    decode w = .error .reservedOp ↔ opField w ≠ 0b00#2 ∧ opField w ≠ 0b01#2 := by
  unfold decode
  split_ifs <;> simp_all

theorem decode_eq_reservedSendByteBits_iff (w : RequestWord) :
    decode w = .error .reservedSendByteBits ↔
      opField w = 0b00#2 ∧ w.extractLsb' 8 22 ≠ 0#22 := by
  unfold decode
  split_ifs <;> simp_all

theorem decode_eq_reservedSetMotorBits_iff (w : RequestWord) :
    decode w = .error .reservedSetMotorBits ↔
      opField w = 0b01#2 ∧ w.extractLsb' 17 13 ≠ 0#13 := by
  unfold decode
  split_ifs <;> simp_all

/-! ### The conditions and the operands as numbers -/

theorem opField_eq_iff (w : RequestWord) (op : BitVec 2) :
    opField w = op ↔ w.toNat / 2 ^ 30 = op.toNat := by
  rw [← BitVec.toNat_inj, opField_toNat]

theorem sendByteReserved_eq_zero_iff (w : RequestWord) :
    w.extractLsb' 8 22 = 0#22 ↔ w.toNat / 2 ^ 8 % 2 ^ 22 = 0 := by
  rw [← BitVec.toNat_inj, sendByteReserved_toNat, BitVec.toNat_zero]

theorem setMotorReserved_eq_zero_iff (w : RequestWord) :
    w.extractLsb' 17 13 = 0#13 ↔ w.toNat / 2 ^ 17 % 2 ^ 13 = 0 := by
  rw [← BitVec.toNat_inj, setMotorReserved_toNat, BitVec.toNat_zero]

theorem sendByteFormat_iff (w : RequestWord) :
    opField w = 0b00#2 ∧ w.extractLsb' 8 22 = 0#22 ↔
      w.toNat / 2 ^ 30 = 0 ∧ w.toNat / 2 ^ 8 % 2 ^ 22 = 0 :=
  and_congr (opField_eq_iff w _) (sendByteReserved_eq_zero_iff w)

theorem setMotorFormat_iff (w : RequestWord) :
    opField w = 0b01#2 ∧ w.extractLsb' 17 13 = 0#13 ↔
      w.toNat / 2 ^ 30 = 1 ∧ w.toNat / 2 ^ 17 % 2 ^ 13 = 0 :=
  and_congr (opField_eq_iff w _) (setMotorReserved_eq_zero_iff w)

theorem dataField_eq_ofNat (w : RequestWord) : dataField w = BitVec.ofNat 8 (w.toNat % 256) := by
  refine BitVec.eq_of_toNat_eq ?_
  simp [dataField_toNat]

theorem motorOfBit_motorField (w : RequestWord) :
    motorOfBit (motorField w) = if w.toNat / 2 ^ 16 % 2 = 0 then .a else .b := by
  simp only [motorOfBit, ← BitVec.toNat_inj, motorField_toNat, BitVec.toNat_zero]

theorem motorOfBit_motorField_eq_a_iff (w : RequestWord) :
    motorOfBit (motorField w) = .a ↔ w.toNat / 2 ^ 16 % 2 = 0 := by
  have zero_bit (b : BitVec 1) : motorOfBit b = .a ↔ b = 0#1 := by
    decide +revert
  rw [zero_bit, ← BitVec.toNat_inj, motorField_toNat, BitVec.toNat_zero]

theorem sext16_speedField (w : RequestWord) :
    sext16 (speedField w) =
      if w.toNat % 65536 < 32768 then (w.toNat % 65536 : Int)
      else (w.toNat % 65536 : Int) - 65536 := by
  rw [sext16, BitVec.toInt_eq_toNat_cond, speedField_toNat]
  split_ifs <;> omega

/-- Bit 31 tells the reserved values of OP from the two in use. -/
theorem opField_reserved_iff (w : RequestWord) :
    opField w ≠ 0b00#2 ∧ opField w ≠ 0b01#2 ↔ w.getLsbD 31 = true := by
  have two_bits (op : BitVec 2) : op ≠ 0b00#2 ∧ op ≠ 0b01#2 ↔ op.getLsbD 1 = true := by
    decide +revert
  rw [two_bits, opField, BitVec.getLsbD_extractLsb']
  simp

/-! ### The operands that encode keeps -/

theorem motorOfBit_bitOfMotor (m : Motor) : motorOfBit (bitOfMotor m) = m := by
  cases m <;> rfl

theorem bitOfMotor_motorOfBit (b : BitVec 1) : bitOfMotor (motorOfBit b) = b := by
  decide +revert

theorem speedInRange_iff (v : Int) : speedInRange v = true ↔ -32768 ≤ v ∧ v ≤ 32767 := by
  simp [speedInRange]

theorem speedInRange_sext16 (x : BitVec 16) : speedInRange (sext16 x) = true :=
  (speedInRange_iff _).2 ⟨x.le_toInt, Int.le_of_lt_add_one x.toInt_lt⟩

theorem ofInt_sext16 (x : BitVec 16) : BitVec.ofInt 16 (sext16 x) = x :=
  BitVec.ofInt_toInt

theorem sext16_ofInt {v : Int} (h : speedInRange v = true) : sext16 (BitVec.ofInt 16 v) = v := by
  obtain ⟨hlow, hhigh⟩ := (speedInRange_iff v).1 h
  exact BitVec.toInt_ofInt_eq_self (by decide) hlow (Int.lt_add_one_of_le hhigh)

/-! ### Decoding is the inverse of encoding -/

theorem dataField_encode_sendByte (d : Byte) : dataField (encode (.sendByte d)) = d :=
  BitVec.extractLsb'_append_eq_right

theorem decode_encode_sendByte (d : Byte) : decode (encode (.sendByte d)) = .ok (.sendByte d) := by
  have hw := encode_sendByte_toNat d
  have hd := d.isLt
  rw [decode_eq_sendByte_iff, ← and_assoc, sendByteFormat_iff]
  exact ⟨by omega, dataField_encode_sendByte d⟩

theorem speedField_encode_setMotor (m : Motor) (v : Int) :
    speedField (encode (.setMotor m v)) = BitVec.ofInt 16 v :=
  BitVec.extractLsb'_append_eq_right

theorem motorField_encode_setMotor (m : Motor) (v : Int) :
    motorField (encode (.setMotor m v)) = bitOfMotor m := by
  rw [motorField, encode, BitVec.extractLsb'_append_eq_of_le (Nat.le_refl 16)]
  exact BitVec.extractLsb'_append_eq_right

theorem decode_encode_setMotor (m : Motor) {v : Int} (h : speedInRange v = true) :
    decode (encode (.setMotor m v)) = .ok (.setMotor m v) := by
  have hw := encode_setMotor_toNat m v
  have hv := (BitVec.ofInt 16 v).isLt
  rw [decode_eq_setMotor_iff, ← and_assoc, setMotorFormat_iff, motorField_encode_setMotor,
    speedField_encode_setMotor, motorOfBit_bitOfMotor, sext16_ofInt h]
  exact ⟨by split_ifs at hw <;> omega, rfl, rfl⟩

theorem decode_encode {i : Instr} (h : wellFormed i = true) : decode (encode i) = .ok i := by
  cases i with
  | sendByte d => exact decode_encode_sendByte d
  | setMotor m v => exact decode_encode_setMotor m h

theorem wellFormed_of_decode {w : RequestWord} {i : Instr} (h : decode w = .ok i) :
    wellFormed i = true := by
  cases i with
  | sendByte d => rfl
  | setMotor m v =>
    obtain ⟨-, -, -, rfl⟩ := (decode_eq_setMotor_iff w m v).1 h
    exact speedInRange_sext16 _

/-- What the decoder checks and what it reads are together the whole word. -/
theorem encode_of_decode {w : RequestWord} {i : Instr} (h : decode w = .ok i) : encode i = w := by
  refine BitVec.eq_of_toNat_eq ?_
  cases i with
  | sendByte d =>
    obtain ⟨hop, hreserved, rfl⟩ := (decode_eq_sendByte_iff w d).1 h
    have format := (sendByteFormat_iff w).1 ⟨hop, hreserved⟩
    rw [encode_sendByte_toNat, dataField_toNat]
    omega
  | setMotor m v =>
    obtain ⟨hop, hreserved, rfl, rfl⟩ := (decode_eq_setMotor_iff w m v).1 h
    have format := (setMotorFormat_iff w).1 ⟨hop, hreserved⟩
    simp only [encode_setMotor_toNat, ofInt_sext16, speedField_toNat,
      motorOfBit_motorField_eq_a_iff]
    split_ifs <;> omega

/-! ### The formats as words under a mask (R71, R72) -/

/-- A mask of high bits clears the bits below it. -/
theorem and_highMask_toNat {n : Nat} (w : BitVec n) (k : Nat) :
    (w &&& (BitVec.allOnes n <<< k)).toNat = w.toNat / 2 ^ k * 2 ^ k := by
  have clear_low : w &&& (BitVec.allOnes n <<< k) = (w >>> k) <<< k := by
    ext i hi
    by_cases hik : i < k
    · simp [hik]
    · simp [hik, Nat.add_sub_cancel' (Nat.le_of_not_lt hik), hi]
  have fits : w.toNat / 2 ^ k * 2 ^ k < 2 ^ n :=
    Nat.lt_of_le_of_lt (Nat.div_mul_le_self _ _) w.isLt
  rw [clear_low, BitVec.toNat_shiftLeft, BitVec.toNat_ushiftRight, Nat.shiftLeft_eq,
    Nat.shiftRight_eq_div_pow, Nat.mod_eq_of_lt fits]

theorem sendByteMask_iff (w : RequestWord) :
    w &&& 0xFFFFFF00#32 = 0x00000000#32 ↔ opField w = 0b00#2 ∧ w.extractLsb' 8 22 = 0#22 := by
  have hmask : (w &&& 0xFFFFFF00#32).toNat = w.toNat / 2 ^ 8 * 2 ^ 8 := and_highMask_toNat w 8
  rw [← BitVec.toNat_inj, hmask, sendByteFormat_iff, BitVec.toNat_ofNat]
  omega

theorem setMotorMask_iff (w : RequestWord) :
    w &&& 0xFFFE0000#32 = 0x40000000#32 ↔ opField w = 0b01#2 ∧ w.extractLsb' 17 13 = 0#13 := by
  have hmask : (w &&& 0xFFFE0000#32).toNat = w.toNat / 2 ^ 17 * 2 ^ 17 := and_highMask_toNat w 17
  rw [← BitVec.toNat_inj, hmask, setMotorFormat_iff, BitVec.toNat_ofNat]
  omega

theorem motorOfBit_motorField_eq_bit (w : RequestWord) :
    motorOfBit (motorField w) = if w.getLsbD 16 then .b else .a := by
  have one_bit (b : BitVec 1) : motorOfBit b = if b.getLsbD 0 then .b else .a := by
    decide +revert
  rw [one_bit, motorField, BitVec.getLsbD_extractLsb']
  simp

/-! ### How many words each format has (R74) -/

theorem natCard_bitVec (n : Nat) : Nat.card (BitVec n) = 2 ^ n :=
  Nat.card_eq_of_equiv_fin BitVec.equivFin.toEquiv

/-- Words that decode are counted by the operands they decode to. -/
theorem ncard_encoded {α : Type} {f : α → Instr} (hf : Function.Injective f)
    (hwf : ∀ x, wellFormed (f x) = true) :
    (Set.range (encode ∘ f)).ncard = Nat.card α := by
  refine Set.ncard_range_of_injective fun x y hxy => hf ?_
  have hdecode : decode (encode (f x)) = decode (encode (f y)) := congrArg decode hxy
  rw [decode_encode (hwf x), decode_encode (hwf y)] at hdecode
  exact Except.ok.inj hdecode

theorem sendByteWords_eq_range :
    {w : RequestWord | ∃ d, decode w = .ok (.sendByte d)} =
      Set.range (encode ∘ Instr.sendByte) := by
  ext w
  constructor
  · rintro ⟨d, h⟩
    exact ⟨d, encode_of_decode h⟩
  · rintro ⟨d, rfl⟩
    exact ⟨d, decode_encode_sendByte d⟩

/-- The SET_MOTOR request of an M bit and a SPEED field. -/
def motorRequest (p : BitVec 1 × BitVec 16) : Instr := .setMotor (motorOfBit p.1) (sext16 p.2)

theorem motorRequest_wellFormed (p : BitVec 1 × BitVec 16) : wellFormed (motorRequest p) = true :=
  speedInRange_sext16 p.2

theorem motorRequest_injective : Function.Injective motorRequest := by
  intro p q h
  obtain ⟨hm, hv⟩ := Instr.setMotor.inj h
  refine Prod.ext ?_ (BitVec.toInt_inj.1 hv)
  rw [← bitOfMotor_motorOfBit p.1, hm, bitOfMotor_motorOfBit]

theorem setMotorWords_eq_range :
    {w : RequestWord | ∃ m v, decode w = .ok (.setMotor m v)} =
      Set.range (encode ∘ motorRequest) := by
  ext w
  constructor
  · rintro ⟨m, v, h⟩
    obtain ⟨-, -, rfl, rfl⟩ := (decode_eq_setMotor_iff w m v).1 h
    exact ⟨(motorField w, speedField w), encode_of_decode h⟩
  · rintro ⟨p, rfl⟩
    exact ⟨_, _, decode_encode (motorRequest_wellFormed p)⟩

/-! ### The statements -/

/-- Settles O1: each field of the encoded word is the operand that was put there. -/
theorem decodeEncodeRoundTrip : Obligations.DecodeEncodeRoundTrip :=
  fun _ => decode_encode

/-- Settles O2. -/
theorem decodedWordIsEncoding : Obligations.DecodedWordIsEncoding :=
  fun _ _ h => ⟨wellFormed_of_decode h, encode_of_decode h⟩

/-- A word with neither format is refused. -/
theorem exists_decode_error {w : RequestWord}
    (hsend : ¬(opField w = 0b00#2 ∧ w.extractLsb' 8 22 = 0#22))
    (hmotor : ¬(opField w = 0b01#2 ∧ w.extractLsb' 17 13 = 0#13)) : ∃ e, decode w = .error e := by
  cases h : decode w with
  | error e => exact ⟨e, rfl⟩
  | ok i =>
    cases i with
    | sendByte d =>
      obtain ⟨hop, hreserved, -⟩ := (decode_eq_sendByte_iff w d).1 h
      exact absurd ⟨hop, hreserved⟩ hsend
    | setMotor m v =>
      obtain ⟨hop, hreserved, -⟩ := (decode_eq_setMotor_iff w m v).1 h
      exact absurd ⟨hop, hreserved⟩ hmotor

/-- Settles O3: the decoder's conditions as numbers, and the words of an operation counted as the
encodings of its operands. -/
theorem decoderOfAllWords : Obligations.DecoderOfAllWords := by
  refine ⟨fun w => ?_, ?_, ?_⟩
  · split
    next hsend =>
      obtain ⟨hop, hreserved⟩ := (sendByteFormat_iff w).2 hsend
      exact (decode_eq_sendByte_iff w _).2 ⟨hop, hreserved, dataField_eq_ofNat w⟩
    next hsend =>
      split
      next hmotor =>
        obtain ⟨hop, hreserved⟩ := (setMotorFormat_iff w).2 hmotor
        exact (decode_eq_setMotor_iff w _ _).2
          ⟨hop, hreserved, motorOfBit_motorField w, sext16_speedField w⟩
      next hmotor =>
        exact exists_decode_error (mt (sendByteFormat_iff w).1 hsend)
          (mt (setMotorFormat_iff w).1 hmotor)
  · rw [sendByteWords_eq_range, ncard_encoded (fun _ _ => Instr.sendByte.inj) fun _ => rfl,
      natCard_bitVec]
  · rw [setMotorWords_eq_range, ncard_encoded motorRequest_injective motorRequest_wellFormed,
      Nat.card_prod, natCard_bitVec, natCard_bitVec, ← Nat.pow_add]

/-- Settles O4. -/
theorem sendByteWordFormat : Obligations.SendByteWordFormat := by
  refine fun w => ⟨sendByteMask_iff w, ?_⟩
  rw [sendByteMask_iff, decode_eq_sendByte_iff]
  exact and_congr_right fun _ => (and_iff_left rfl).symm

/-- Settles O5. -/
theorem setMotorWordFormat : Obligations.SetMotorWordFormat := by
  intro w
  refine ⟨setMotorMask_iff w, ?_, (speedInRange_iff _).1 (speedInRange_sext16 (speedField w))⟩
  rw [setMotorMask_iff, decode_eq_setMotor_iff]
  exact and_congr_right fun _ =>
    (and_iff_left ⟨motorOfBit_motorField_eq_bit w, rfl⟩).symm

/-- Settles O6. -/
theorem illegalWordsByName : Obligations.IllegalWordsByName :=
  fun w => ⟨(decode_eq_reservedOp_iff w).trans (opField_reserved_iff w),
    decode_eq_reservedSendByteBits_iff w, decode_eq_reservedSetMotorBits_iff w⟩

end Sys2Proof
end

