-- ==== Sys2Proof/Proofs/RequestSources.lean ====
section
/-! Where request words come from: the assembler (spec/30_encoding.md rules R85 to R87) and the
request port, on which a placed word is the one that the next step runs (log 5). -/

namespace Sys2Proof

open Machine

/-! ### The assembler -/

theorem encode_sendByte_ofInt {imm : Int} (h0 : 0 ≤ imm) (h255 : imm ≤ 255) :
    encode (.sendByte (BitVec.ofInt 8 imm)) = 0x00000000#32 ||| BitVec.ofInt 32 imm := by
  refine BitVec.eq_of_toNat_eq ?_
  rw [BitVec.zero_or, encode_sendByte_toNat, BitVec.toNat_ofInt, BitVec.toNat_ofInt]
  omega

/-- The low 16 bits of a two's-complement number are its two's complement in 16 bits. -/
theorem and_lowHalf_toNat (v : Int) :
    (BitVec.ofInt 32 v &&& 0xFFFF#32).toNat = (BitVec.ofInt 16 v).toNat := by
  have mask (n : Nat) : n &&& 0xFFFF = n % 65536 := Nat.and_two_pow_sub_one_eq_mod n 16
  rw [BitVec.toNat_and, BitVec.toNat_ofNat, Nat.mod_eq_of_lt (by decide), mask,
    BitVec.toNat_ofInt, BitVec.toNat_ofInt]
  omega

/-- The SET_MOTOR word of a motor with speed 0: the bits above SPEED (R72). -/
def setMotorBits (m : Motor) : RequestWord :=
  match m with
  | .a => 0x40000000#32
  | .b => 0x40010000#32

/-- The speed fills the bits that `setMotorBits` leaves 0, so adding it is OR. -/
theorem encode_setMotor_eq_or (m : Motor) (v : Int) :
    encode (.setMotor m v) = setMotorBits m ||| (BitVec.ofInt 32 v &&& 0xFFFF#32) := by
  have add_eq_or := Nat.two_pow_add_eq_or_of_lt (BitVec.ofInt 16 v).isLt
  refine BitVec.eq_of_toNat_eq ?_
  rw [encode_setMotor_toNat, BitVec.toNat_or, and_lowHalf_toNat]
  cases m with
  | a => exact add_eq_or 0x4000
  | b => exact add_eq_or 0x4001

theorem assemble_sendbyte (imm : Int) :
    assemble (.sendbyte imm) =
      if 0 ≤ imm ∧ imm ≤ 255 then some [0x00000000#32 ||| BitVec.ofInt 32 imm] else none := by
  rw [assemble]
  split
  next h => rw [encode_sendByte_ofInt h.1 h.2]
  next => rfl

theorem assemble_setmotor (m : Motor) (imm : Int) :
    assemble (.setmotor m imm) =
      if -32768 ≤ imm ∧ imm ≤ 32767 then
        some [setMotorBits m ||| (BitVec.ofInt 32 imm &&& 0xFFFF#32)] else none := by
  simp only [assemble, encode_setMotor_eq_or, speedInRange_iff]

theorem assemble_word_of_inRange {imm : Int} (h0 : 0 ≤ imm) (h : imm < 2 ^ 32) :
    assemble (.word imm) = some [BitVec.ofInt 32 imm] :=
  if_pos ⟨h0, h⟩

theorem assemble_word_of_outOfRange {imm : Int} (h : imm < 0 ∨ 2 ^ 32 ≤ imm) :
    assemble (.word imm) = none :=
  if_neg (by omega)

theorem ofInt_toNat_of_inRange {imm : Int} (h0 : 0 ≤ imm) (h : imm < 2 ^ 32) :
    ((BitVec.ofInt 32 imm).toNat : Int) = imm := by
  rw [BitVec.toNat_ofInt]
  omega

/-- Settles O7, line by line of R85. -/
theorem assemblerRefusesOutOfRange : Obligations.AssemblerRefusesOutOfRange :=
  fun imm => ⟨assemble_sendbyte imm, assemble_setmotor .a imm, assemble_setmotor .b imm,
    fun h0 h => ⟨_, assemble_word_of_inRange h0 h, ofInt_toNat_of_inRange h0 h⟩,
    assemble_word_of_outOfRange⟩

/-- Settles O8, by evaluation of the one line. -/
theorem stopIsTwoZeroCommands : Obligations.StopIsTwoZeroCommands := by
  refine ⟨?_, ?_, ?_⟩ <;> decide

/-- Settles O9, by evaluation of the five words. -/
theorem encodedWordsDecode : Obligations.EncodedWordsDecode := by
  refine ⟨?_, ?_, ?_, ?_, ?_⟩ <;> decide

/-! ### A word placed on the request port -/

/-- A request word is its own 32 bits of the opcode table's numbering. -/
theorem ofNat_toNat_mod (w : RequestWord) : BitVec.ofNat 32 (w.toNat % 2 ^ 32) = w := by
  rw [Nat.mod_eq_of_lt w.isLt, BitVec.ofNat_toNat, BitVec.setWidth_eq]

theorem decodeTableWord_of_decode {w : RequestWord} {i : Instr} (h : decode w = .ok i) :
    decodeTableWord 32 w.toNat = some i := by
  have hlt : w.toNat % 2 ^ 32 < 2 ^ 32 := Nat.mod_lt _ (by decide)
  simp only [decodeTableWord, if_pos hlt, ofNat_toNat_mod, h]

theorem withFetchWord_toNat (s : State) (w : RequestWord) :
    s.withFetchWord 32 w.toNat = offerWord w s := by
  rw [State.withFetchWord, ofNat_toNat_mod]

/-- An offered word runs its request in the next step, whatever the state it is offered in. -/
theorem step_offerWord {w : RequestWord} {i : Instr} {t : State} (s : State)
    (hd : decode w = .ok i) (he : exec i (offerWord w s) = .next t) :
    step (offerWord w s) = .next (hostMove true t) :=
  slotStep_accept rfl rfl rfl hd he

/-- Settles O24: the word placed is the encoding, which decodes to the request. -/
theorem placedRequestRunsNext : Obligations.PlacedRequestRunsNext := by
  intro s i hwf
  have hd := decode_encode hwf
  have he := exec_eq_beginRequest i (offerWord (encode i) s)
  refine ⟨decodeTableWord_of_decode hd, _, he, ?_⟩
  rw [withFetchWord_toNat]
  exact step_offerWord s hd he

end Sys2Proof
end

