-- ==== Sys2Proof/Proofs/CommandBytes.lean ====
section
/-! The bytes of a motor command by their bit 7 (spec/30_encoding.md rule R82). -/

namespace Sys2Proof

open Machine

/-- Settles O15, byte by byte: the start and device bytes are fixed, bit 7 of the motor/direction
byte is 0 by R10, and the speed byte is masked to seven bits. -/
theorem onlyStartByteHasBitSeven : Obligations.OnlyStartByteHasBitSeven := by
  intro m s i
  have hstart : (command m s).b0.getLsbD 7 = true := (by decide : Config.startByte.getLsbD 7 = true)
  have hdevice : (command m s).b1.getLsbD 7 = false :=
    (by decide : Config.deviceByte.getLsbD 7 = false)
  have hmotorDir : (command m s).b2.getLsbD 7 = false := Config.motorDirByte_valid.1 m _
  have hspeed : (command m s).b3.getLsbD 7 = false := speedByte_getLsbD_seven _
  match i with
  | 0 => exact iff_of_true hstart rfl
  | 1 => exact iff_of_false (Bool.eq_false_iff.1 hdevice) (by decide)
  | 2 => exact iff_of_false (Bool.eq_false_iff.1 hmotorDir) (by decide)
  | 3 => exact iff_of_false (Bool.eq_false_iff.1 hspeed) (by decide)

end Sys2Proof
end

