-- ==== Sys2Proof/Proofs/BusyRuns.lean ====
section
/-! Runs of a busy block with what they put on the line (spec/40_serial_transmitter.md rules R102 to
R104, R108): a frame slot by slot, and the gap after it. -/

namespace Sys2Proof.Machine

/-! ### Frames and gaps as traces -/

@[simp] theorem length_frameTrace (b : Byte) : (frameTrace b).length = 11 := rfl

theorem frameTrace_getElem (b : Byte) (k : Nat) (hk : k < (frameTrace b).length) :
    (frameTrace b)[k] = .slot (frameLevel b ⟨k, hk⟩) := by
  simp [frameTrace, frame_toList]

theorem traceTicks_append (t r : List Interval) :
    traceTicks (t ++ r) = traceTicks t + traceTicks r := by
  simp [traceTicks]

theorem traceTicks_frameTrace (b : Byte) : traceTicks (frameTrace b) = 110 := rfl

theorem traceTicks_replicate_mark (n : Nat) : traceTicks (List.replicate n .mark) = n := by
  simp [traceTicks, intervalTicks]

/-! ### A run through busy states -/

/-- The block goes from `s` to `u` through busy states, and its steps append `t` to the line. -/
inductive BusyRun : State → List Interval → State → Prop where
  | nil (s : State) : BusyRun s [] s
  | cons {s u : State} {t : List Interval} : busy (advance s) = true → BusyRun (advance s) t u →
      BusyRun s (interval (advance s) :: t) u

namespace BusyRun

variable {s u v : State} {t r : List Interval}

theorem single {i : Interval} (hb : busy (advance s) = true) (hi : interval (advance s) = i) :
    BusyRun s [i] (advance s) :=
  hi ▸ .cons hb (.nil _)

theorem append (h : BusyRun s t u) (h' : BusyRun u r v) : BusyRun s (t ++ r) v := by
  induction h with
  | nil => exact h'
  | cons hb _ ih => exact .cons hb (ih h')

theorem advanceN_eq (h : BusyRun s t u) : advanceN t.length s = u := by
  induction h with
  | nil => rfl
  | cons _ _ ih => exact ih

theorem advanceN_succ_eq (h : BusyRun s t u) : advanceN (t.length + 1) s = advance u := by
  rw [advanceN_add, h.advanceN_eq]
  rfl

theorem trace_eq (h : BusyRun s t u) : trace t.length s = t := by
  induction h with
  | nil => rfl
  | cons _ _ ih => exact congrArg _ ih

theorem busy_advanceN (h : BusyRun s t u) :
    ∀ k, 1 ≤ k → k ≤ t.length → busy (advanceN k s) = true := by
  induction h with
  | nil => intro k h1 h0; exact absurd (Nat.le_trans h1 h0) (by decide)
  | cons hb _ ih =>
    rintro (_ | _ | k) h1 hk
    · exact absurd h1 (by decide)
    · exact hb
    · exact ih (k + 1) (Nat.le_add_left 1 k) (Nat.le_of_succ_le_succ hk)

end BusyRun

/-! ### Where the block stands in a request -/

/-- The block sending slot `k` of its byte `i`. -/
def slotBlock (x : Block) (i : Fin 4) (k : Fin 11) : Block :=
  { x with phase := .frame, bidx := i, slot := k, tx := frameLevel (x.buf.get i) k }

/-- The block in the gap after its byte `i`. -/
def gapBlock (x : Block) (i : Fin 4) : Block :=
  { x with phase := .gap, bidx := i, slot := 10, tx := true }

/-- The block is as given, `d` gap lengths have been drawn, and no reset is to come. -/
structure StandsAt (x : Block) (d : Nat) (s : State) : Prop where
  noReset : NoReset s
  block : s.block = x
  draws : s.draws = d

theorem StandsAt.hostMove {x : Block} {d : Nat} {s : State} (h : StandsAt x d s) (c : Bool) :
    StandsAt x d (hostMove c s) where
  noReset := h.noReset.hostMove c
  block := (hostMove_block c s).trans h.block
  draws := (hostMove_draws s c).trans h.draws

theorem busy_of_not_idle {s : State} (hp : s.phase ≠ .idle) : busy s = true :=
  decide_eq_true hp

theorem busy_of_idle {s : State} (hp : s.phase = .idle) : busy s = false :=
  decide_eq_false (not_not_intro hp)

theorem interval_of_frame {s : State} (hp : s.phase = .frame) : interval s = .slot s.tx := by
  rw [interval, hp]

theorem interval_of_gap {s : State} (hp : s.phase = .gap) : interval s = .mark := by
  rw [interval, hp]

/-- A step into a slot puts the level of that slot on the line. -/
theorem BusyRun.slot {x : Block} {i : Fin 4} {k : Fin 11} {d : Nat} {s : State}
    (h : StandsAt (slotBlock x i k) d (advance s)) :
    BusyRun s [.slot (frameLevel (x.buf.get i) k)] (advance s) := by
  have hp : (advance s).phase = .frame := congrArg Block.phase h.block
  have htx : (advance s).tx = frameLevel (x.buf.get i) k := congrArg Block.tx h.block
  exact .single (busy_of_not_idle (by simp [hp])) (by rw [interval_of_frame hp, htx])

/-- A step into a gap, or inside one, puts a mark on the line. -/
theorem BusyRun.mark {x : Block} {i : Fin 4} {d : Nat} {s : State}
    (h : StandsAt (gapBlock x i) d (advance s)) : BusyRun s [.mark] (advance s) := by
  have hp : (advance s).phase = .gap := congrArg Block.phase h.block
  exact .single (busy_of_not_idle (by simp [hp])) (interval_of_gap hp)

/-! ### The steps of a gap by the ticks left -/

theorem gapStep_of_zero {s : State} (h : s.gapLeft = 0) : gapStep s = startNextFrame s := by
  simp [gapStep, h]

theorem gapStep_of_succ {s : State} {more : Nat} (h : s.gapLeft = more + 1) :
    gapStep s = holdGap more s := by
  simp [gapStep, h]

/-! ### The block after an update of the state -/

theorem nextSlot_block (s : State) :
    (nextSlot s).block =
      { s.block with
        slot := s.block.slot + 1
        tx := frameLevel (s.block.buf.get s.block.bidx) (s.block.slot + 1) } := rfl

theorem startNextFrame_block (s : State) :
    (startNextFrame s).block = slotBlock s.block (s.block.bidx + 1) 0 := rfl

theorem enterGap_block (more : Nat) (s : State) :
    (enterGap more s).block = { s.block with phase := .gap } := rfl

theorem finishRequest_block (s : State) :
    (finishRequest s).block = { s.block with phase := .idle, bidx := 0, slot := 0 } := rfl

namespace StandsAt

variable {x : Block} {i : Fin 4} {d : Nat} {s : State}

theorem noteDraw (h : StandsAt x d s) : StandsAt x (d + 1) (noteDraw s) :=
  ⟨h.noReset.congr rfl rfl, h.block, congrArg (· + 1) h.draws⟩

theorem startNextFrame (h : StandsAt x d s) :
    StandsAt (slotBlock x (x.bidx + 1) 0) d (startNextFrame s) :=
  ⟨h.noReset.congr rfl rfl, by rw [startNextFrame_block, h.block], h.draws⟩

/-- The last slot of a frame leaves the line at the level of a gap. -/
theorem enterGap (h : StandsAt (slotBlock x i 10) d s) (more : Nat) :
    StandsAt (gapBlock x i) d (enterGap more s) :=
  ⟨h.noReset.congr rfl rfl, by rw [enterGap_block, h.block]; rfl, h.draws⟩

theorem holdGap (h : StandsAt x d s) (more : Nat) : StandsAt x d (holdGap more s) :=
  ⟨h.noReset.congr rfl rfl, h.block, h.draws⟩

/-! ### A frame -/

theorem advance_nextSlot {k : Fin 11} (h : StandsAt (slotBlock x i k) d s) (hk : k.val < 10) :
    StandsAt (slotBlock x i (k + 1)) d (advance s) := by
  have hp : s.phase = .frame := congrArg Block.phase h.block
  have hs : s.slot = k := congrArg Block.slot h.block
  have hnext : StandsAt (slotBlock x i (k + 1)) d (nextSlot s) :=
    ⟨h.noReset.congr rfl rfl, by rw [nextSlot_block, h.block]; rfl, h.draws⟩
  rw [advance_of_nextSlot h.noReset.1 hp (hs ▸ hk)]
  exact hnext.hostMove false

/-- From the step that drives its start bit, a frame goes on the line slot by slot. -/
theorem busyRun_frame_take (h : StandsAt (slotBlock x i 0) d (advance s)) (k : Nat) (hk : k < 11) :
    ∃ u, BusyRun s ((frameTrace (x.buf.get i)).take (k + 1)) u ∧
      StandsAt (slotBlock x i ⟨k, hk⟩) d u := by
  induction k with
  | zero => exact ⟨advance s, .slot h, h⟩
  | succ k ih =>
    obtain ⟨u, hrun, hu⟩ := ih (by omega)
    have hnext := hu.advance_nextSlot (Nat.lt_of_succ_lt_succ hk)
    have hslot : (⟨k, by omega⟩ : Fin 11) + 1 = ⟨k + 1, hk⟩ :=
      Fin.ext (slot_succ_val _ (Nat.lt_of_succ_lt_succ hk))
    rw [hslot] at hnext
    refine ⟨advance u, ?_, hnext⟩
    rw [← List.take_append_getElem (by simpa [frameTrace] using hk), frameTrace_getElem]
    exact hrun.append (.slot hnext)

theorem busyRun_frame (h : StandsAt (slotBlock x i 0) d (advance s)) :
    ∃ u, BusyRun s (frameTrace (x.buf.get i)) u ∧ StandsAt (slotBlock x i 10) d u :=
  h.busyRun_frame_take 10 (by decide)

/-! ### The gap after a frame -/

/-- From its first mark, a gap goes on for the ticks left, and the next frame begins. -/
theorem busyRun_gap_ticks {n : Nat} (h : StandsAt (gapBlock x i) d s) (hn : s.gapLeft = n) :
    ∃ u, BusyRun s (List.replicate n .mark) u ∧
      StandsAt (slotBlock x (i + 1) 0) d (advance u) := by
  induction n generalizing s with
  | zero =>
    refine ⟨s, .nil s, ?_⟩
    rw [advance_of_gap h.noReset.1 (congrArg Block.phase h.block), gapStep_of_zero hn]
    exact h.startNextFrame.hostMove false
  | succ n ih =>
    have hstep : advance s = Machine.hostMove false (Machine.holdGap n s) := by
      rw [advance_of_gap h.noReset.1 (congrArg Block.phase h.block), gapStep_of_succ hn]
    have hnext : StandsAt (gapBlock x i) d (advance s) := hstep ▸ (h.holdGap n).hostMove false
    obtain ⟨u, hrun, hu⟩ := ih hnext (by simp [hstep])
    exact ⟨u, (BusyRun.mark hnext).append hrun, hu⟩

/-- After the last slot of a frame with a byte to follow comes a gap of the free length drawn
there, and then the next frame. -/
theorem busyRun_gap (h : StandsAt (slotBlock x i 10) d s) (hmore : i.val + 1 ≠ x.nbytes.toNat) :
    ∃ u, BusyRun s (List.replicate (Config.gapLength d) .mark) u ∧
      StandsAt (slotBlock x (i + 1) 0) (d + 1) (advance u) := by
  have hp : s.phase = .frame := congrArg Block.phase h.block
  have hs : s.slot = 10 := congrArg Block.slot h.block
  have hb : s.bidx = i := congrArg Block.bidx h.block
  have hn : s.nbytes = x.nbytes := congrArg Block.nbytes h.block
  have hstep := advance_of_endFrame h.noReset.1 hp hs
  rw [← hb, ← hn] at hmore
  rw [h.draws] at hstep
  cases hgap : Config.gapLength d with
  | zero =>
    rw [hgap, endFrame_next hmore] at hstep
    exact ⟨s, .nil s, hstep ▸ h.noteDraw.startNextFrame.hostMove false⟩
  | succ more =>
    rw [hgap, endFrame_gap more hmore] at hstep
    have hnext : StandsAt (gapBlock x i) (d + 1) (advance s) :=
      hstep ▸ (h.noteDraw.enterGap more).hostMove false
    obtain ⟨u, hrun, hu⟩ := hnext.busyRun_gap_ticks (n := more) (by simp [hstep])
    exact ⟨u, (BusyRun.mark hnext).append hrun, hu⟩

theorem busyRun_frame_gap (h : StandsAt (slotBlock x i 0) d (advance s))
    (hmore : i.val + 1 ≠ x.nbytes.toNat) :
    ∃ u, BusyRun s (frameTrace (x.buf.get i) ++ List.replicate (Config.gapLength d) .mark) u ∧
      StandsAt (slotBlock x (i + 1) 0) (d + 1) (advance u) := by
  obtain ⟨u, hframe, hu⟩ := h.busyRun_frame
  obtain ⟨v, hgap, hv⟩ := hu.busyRun_gap hmore
  exact ⟨v, hframe.append hgap, hv⟩

/-! ### The end of a request -/

/-- After the last slot of the last frame the block is idle with the line at 1. -/
theorem advance_finishRequest (h : StandsAt (slotBlock x i 10) d s)
    (hlast : i.val + 1 = x.nbytes.toNat) :
    StandsAt { x with phase := .idle, bidx := 0, slot := 0, tx := true } d (advance s) := by
  have hp : s.phase = .frame := congrArg Block.phase h.block
  have hs : s.slot = 10 := congrArg Block.slot h.block
  have hb : s.bidx = i := congrArg Block.bidx h.block
  have hn : s.nbytes = x.nbytes := congrArg Block.nbytes h.block
  have hfinish : StandsAt { x with phase := .idle, bidx := 0, slot := 0, tx := true } d
      (finishRequest s) :=
    ⟨h.noReset.congr rfl rfl, by rw [finishRequest_block, h.block]; rfl, h.draws⟩
  rw [advance_of_endFrame h.noReset.1 hp hs, endFrame_last _ (by rw [hb, hn, hlast])]
  exact hfinish.hostMove false

end StandsAt

/-- The block with the bytes of a request in `buf`. -/
def requestBlock (i : Instr) (s : State) : Block :=
  { s.block with buf := requestBytes i s, nbytes := requestCount i }

/-- An accepted request stands at the start bit of its first byte. -/
theorem standsAt_advance_of_accept {s : State} {i : Instr} (hno : NoReset s) (hp : s.phase = .idle)
    (hv : s.reqValid = true) (hd : decode s.req = .ok i) :
    StandsAt (slotBlock (requestBlock i s) 0 0) s.draws (advance s) := by
  have hbegin : StandsAt (slotBlock (requestBlock i s) 0 0) s.draws
      (beginRequest (requestBytes i s) (requestCount i) s) :=
    ⟨hno.congr rfl rfl, rfl, rfl⟩
  rw [advance_of_accept hno.1 hp hv hd]
  exact hbegin.hostMove true

end Sys2Proof.Machine
end

