-- ==== Sys2Proof/Proofs/CommandRun.lean ====
section
/-! An accepted SET_MOTOR on the line: the four frames of its command and the gaps between them
(spec/30_encoding.md rule R83, spec/41_motor_command.md rule R142). -/

namespace Sys2Proof.Machine

/-- The frames of four bytes with gaps of the given lengths between them. -/
def commandTrace (b : Buf) (g1 g2 g3 : Nat) : List Interval :=
  frameTrace b.b0 ++ List.replicate g1 .mark ++
  frameTrace b.b1 ++ List.replicate g2 .mark ++
  frameTrace b.b2 ++ List.replicate g3 .mark ++
  frameTrace b.b3

theorem length_commandTrace (b : Buf) (g1 g2 g3 : Nat) :
    (commandTrace b g1 g2 g3).length = 44 + g1 + g2 + g3 := by
  simp only [commandTrace, List.length_append, List.length_replicate, length_frameTrace]
  omega

theorem traceTicks_commandTrace (b : Buf) (g1 g2 g3 : Nat) :
    traceTicks (commandTrace b g1 g2 g3) = 440 + g1 + g2 + g3 := by
  simp only [commandTrace, traceTicks_append, traceTicks_replicate_mark, traceTicks_frameTrace]
  omega

theorem StandsAt.busyRun_command {x : Block} {d : Nat} {s : State} (hn : x.nbytes = .four)
    (h : StandsAt (slotBlock x 0 0) d (advance s)) :
    ∃ u, BusyRun s (commandTrace x.buf (Config.gapLength d) (Config.gapLength (d + 1))
        (Config.gapLength (d + 2))) u ∧ StandsAt (slotBlock x 3 10) (d + 3) u := by
  obtain ⟨s1, run0, h1⟩ := h.busyRun_frame_gap (by simp [hn])
  obtain ⟨s2, run1, h2⟩ := h1.busyRun_frame_gap (by simp [hn])
  obtain ⟨s3, run2, h3⟩ := h2.busyRun_frame_gap (by simp [hn])
  obtain ⟨u, run3, hu⟩ := h3.busyRun_frame
  refine ⟨u, ?_, hu⟩
  simpa [commandTrace] using ((run0.append run1).append run2).append run3

end Sys2Proof.Machine

namespace Sys2Proof

open Machine

/-- Settles O48: the acceptance step drives the first start bit, and the run of the four frames
and three gaps that it begins ends one step before IDLE. -/
theorem setMotorSendsItsCommand : Obligations.SetMotorSendsItsCommand := by
  rintro s m v _ _ _ hp hv hno hd rfl rfl rfl
  obtain ⟨u, hrun, hu⟩ := (standsAt_advance_of_accept hno hp hv hd).busyRun_command rfl
  have hidle := hu.advance_finishRequest rfl
  have htrace := hrun.trace_eq
  have hbusy := hrun.busy_advanceN
  have hend := hrun.advanceN_succ_eq
  rw [length_commandTrace] at htrace hbusy hend
  have hcount (g1 g2 g3 : Nat) : 45 + g1 + g2 + g3 = 44 + g1 + g2 + g3 + 1 := by omega
  rw [hcount, hend]
  refine ⟨htrace, ?_, hbusy, busy_of_idle (congrArg Block.phase hidle.block),
    congrArg Block.tx hidle.block, congrArg Block.illegal hidle.block⟩
  rw [htrace, traceTicks_commandTrace]

end Sys2Proof
end

