-- ==== Sys2Proof/Proofs/SequencerRules.lean ====
section
/-! The rules of the sequencer one by one (spec/40_serial_transmitter.md rules R99 to R107): under
which condition each applies, and what its step writes and leaves. -/

namespace Sys2Proof.Machine

/-! ### Acceptance -/

theorem consumes_of_offer {s : State} (hp : s.phase = .idle) (hr : s.rst = false)
    (hv : s.reqValid = true) : consumes s = true := by
  simp [consumes, reqReady, hp, hr, hv]

/-- An offered word is accepted or refused by `acceptStep`, legal or not (R101). -/
theorem step_of_offer {s : State} (hr : s.rst = false) (hp : s.phase = .idle)
    (hv : s.reqValid = true) : step s = acceptStep s := by
  simp [step, slotStep, hr, hp, hv]

theorem acceptedWord_of_decode {s : State} {i : Instr} (hc : consumes s = true)
    (hd : decode s.req = .ok i) : acceptedWord s = some s.req := by
  simp [acceptedWord, hc, hd]

/-- SEND_BYTE writes only the first byte of the buffer (R100). -/
theorem requestBytes_sendByte (d : Byte) (s : State) :
    requestBytes (.sendByte d) s = { s.buf with b0 := d } := rfl

/-! ### The levels and the bytes of a frame, and the idle interval -/

/-- The slot after `k` carries bit `k` of the byte, or is a stop slot (R102). -/
theorem frameLevel_succ (b : Byte) (k : Fin 11) (hk : k.val < 10) :
    frameLevel b (k + 1) = if k.val + 1 ≤ 8 then b.getLsbD k.val else true := by
  have hsucc := slot_succ_val k hk
  split
  next hdata => exact frameLevel_data b ⟨k.val, hdata⟩ (k + 1) hsucc
  next hstop => exact frameLevel_stop b (k + 1) (by omega)

/-- No request sends more bytes than `buf` holds (R23). -/
theorem ByteCount.toNat_le_four (n : ByteCount) : n.toNat ≤ 4 := by
  cases n <;> decide

theorem interval_of_idle {s : State} (hp : s.phase = .idle) : interval s = .mark := by
  rw [interval, hp]

end Sys2Proof.Machine

namespace Sys2Proof

open Machine

/-- Settles O20: it is the definition of acceptance, written out field by field. -/
theorem sendByteBegins : Obligations.SendByteBegins := fun _ _ => rfl

/-- Settles O22: a request's next state is `beginRequest`, which writes none of these fields. -/
theorem requestsLeaveTheRest : Obligations.RequestsLeaveTheRest := by
  intro i s t h
  rw [exec_eq_beginRequest, Host.Outcome.next.injEq] at h
  subst h
  refine ⟨rfl, rfl, rfl, rfl, rfl, rfl, rfl, rfl, ?_⟩
  rintro d rfl
  rw [beginRequest_buf, requestBytes_sendByte]
  exact ⟨rfl, rfl, rfl⟩

/-- Settles O23. -/
theorem stepRunsDecodedRequest : Obligations.StepRunsDecodedRequest := by
  intro s i hp hr hv hd
  have hc := consumes_of_offer hp hr hv
  have he := exec_eq_beginRequest i s
  exact ⟨hc, acceptedWord_of_decode hc hd, _, he, slotStep_accept hr hp hv hd he⟩

/-- Settles O27: the step is `nextSlot`, whose slot does not wrap before slot 10. -/
theorem nextSlotDrivesItsBit : Obligations.NextSlotDrivesItsBit := by
  intro s hr hp hs
  have hi : interval (hostMove false (nextSlot s)) = .slot (hostMove false (nextSlot s)).tx :=
    interval_of_frame (by simp [hp])
  refine ⟨_, slotStep_nextSlot hr hp hs, ?_, ?_, ?_, ?_, hi, by rw [hi]; rfl⟩
  · rw [hostMove_slot, nextSlot_slot, slot_succ_val _ hs]
  · rw [hostMove_tx, nextSlot_tx, frameLevel_succ _ _ hs]
  · rw [hostMove_block, hostMove_slot, hostMove_tx]
    rfl
  · rw [hostMove_tick, nextSlot_tick]

/-- Settles O28: the three forms of `endFrame`, by whether a byte is to follow and by the gap. -/
theorem endOfFrame : Obligations.EndOfFrame := by
  intro s hr hp hs
  have hstep (gap : Nat) := slotStep_endFrame (gap := gap) hr hp hs
  constructor
  · intro hlast
    refine ⟨_, hstep _, ?_⟩
    rw [endFrame_last _ hlast, hostMove_block, finishRequest_block]
  · intro hmore
    have hne := Nat.ne_of_lt hmore
    refine ⟨⟨_, rfl⟩, ⟨_, hstep 0, ?_, ?_⟩, fun more => ⟨_, hstep (more + 1), ?_, ?_⟩⟩
    · have hb : s.bidx.val < 3 := Nat.lt_of_succ_lt_succ (hmore.trans_le s.nbytes.toNat_le_four)
      rw [endFrame_next hne, hostMove_bidx, startNextFrame_bidx, noteDraw_bidx,
        bidx_succ_val _ hb]
    · rw [endFrame_next hne, hostMove_block, hostMove_bidx, startNextFrame_bidx]
      simp [State.block, hp]
    · rw [endFrame_gap more hne, hostMove_gapLeft, enterGap_gapLeft]
    · rw [endFrame_gap more hne, hostMove_block, enterGap_block]
      rfl

/-- Settles O29: the two forms of `gapStep`, by the ticks left. -/
theorem gapGoesOnOrEnds : Obligations.GapGoesOnOrEnds := by
  intro s hr hp
  have hstep : step s = .next (hostMove false (gapStep s)) := slotStep_gap hr hp
  constructor
  · intro hleft
    obtain ⟨more, hmore⟩ := Nat.exists_eq_add_one.2 hleft
    refine ⟨_, hstep, ?_, ?_⟩
    · rw [gapStep_of_succ hmore, hostMove_block]
      rfl
    · rw [gapStep_of_succ hmore, hostMove_gapLeft, holdGap_gapLeft, hmore]
  · intro hleft hb
    refine ⟨_, hstep, ?_, ?_⟩
    · rw [gapStep_of_zero hleft, hostMove_bidx, startNextFrame_bidx, bidx_succ_val _ hb]
    · rw [gapStep_of_zero hleft, hostMove_block, hostMove_bidx]
      rfl

/-- Settles O30: the step is the host's move alone, which leaves the block. -/
theorem idleChangesNothing : Obligations.IdleChangesNothing := by
  intro s hr hp hv
  have hi : interval (hostMove false s) = .mark := interval_of_idle (by simp [hp])
  exact ⟨_, slotStep_idle hr hp hv, hostMove_block _ _, hostMove_tick _ _, hostMove_gapLeft _ _,
    hostMove_draws _ _, hi, by rw [hi]; rfl⟩

/-- Settles O33: the phase, the slot and `req_valid` tell the five conditions apart, and the step
tests them in its order. -/
theorem exactlyOneRuleApplies : Obligations.ExactlyOneRuleApplies := by
  intro s hr
  refine ⟨?_, fun ⟨hp, hv⟩ => step_of_offer hr hp hv, fun ⟨hp, hs⟩ => slotStep_nextSlot hr hp hs,
    fun ⟨hp, hs⟩ => slotStep_endFrame hr hp (Fin.ext hs), slotStep_gap hr,
    fun ⟨hp, hv⟩ => slotStep_idle hr hp hv⟩
  cases hp : s.phase with
  | idle => cases hv : s.reqValid <;> rfl
  | gap => rfl
  | frame =>
    obtain hs | hs := slot_lt_or_last s
    · simp [hs, Nat.ne_of_lt hs]
    · simp [hs]

end Sys2Proof
end

