-- ==== Sys2Proof/Proofs/BusyPorts.lean ====
section
/-! A busy block and the request port (spec/40_serial_transmitter.md rule R106): in FRAME and GAP
the step neither reads nor writes `req_valid` and `req`. -/

namespace Sys2Proof.Machine

theorem not_reqReady_of_busy {s : State} (hp : s.phase ≠ .idle) : reqReady s = false :=
  Bool.eq_false_iff.2 fun h => hp ((reqReady_eq_true_iff s).1 h).1

theorem not_consumes_of_busy {s : State} (hp : s.phase ≠ .idle) : consumes s = false := by
  rw [consumes, not_reqReady_of_busy hp, Bool.and_false]

/-- Before the host's move, the step of a busy block carries any values of the request port along
and does the same whatever they are. -/
theorem step_of_busy_ports {s : State} (hp : s.phase ≠ .idle) (v : Bool) (w : RequestWord) :
    ∃ t, step s = .next (hostMove false t) ∧
      step { s with reqValid := v, req := w } =
        .next (hostMove false { t with reqValid := v, req := w }) := by
  obtain hr | ⟨hr, hf, hs⟩ | ⟨hr, hf, hs⟩ | ⟨hr, hg⟩ | ⟨-, hi, -⟩ | ⟨-, hi, -⟩ | ⟨-, hi, -⟩ :=
    stepCondition_cases s
  · exact ⟨_, slotStep_reset hr, slotStep_reset hr⟩
  · exact ⟨_, slotStep_nextSlot hr hf hs, slotStep_nextSlot hr hf hs⟩
  · exact ⟨_, slotStep_endFrame hr hf hs, endFrame_ports _ s v w ▸ slotStep_endFrame hr hf hs⟩
  · exact ⟨_, slotStep_gap hr hg, gapStep_ports s v w ▸ slotStep_gap hr hg⟩
  · exact absurd hi hp
  · exact absurd hi hp
  · exact absurd hi hp

end Sys2Proof.Machine

namespace Sys2Proof

open Machine

/-- Settles O31: the two steps differ in the request port before the host's move, and so in no field
of the block or of the gap. -/
theorem busyBlockIgnoresRequests : Obligations.BusyBlockIgnoresRequests := by
  intro s v w hp
  obtain ⟨t, hstep, hports⟩ := step_of_busy_ports hp v w
  rw [advance_of_next hstep, advance_of_next hports]
  exact ⟨not_consumes_of_busy hp, not_reqReady_of_busy hp,
    by rw [hostMove_block, hostMove_block]; rfl,
    by rw [hostMove_gapLeft, hostMove_gapLeft],
    by rw [hostMove_draws, hostMove_draws], _, hstep⟩

end Sys2Proof
end

