-- ==== Sys2Proof/Proofs/SendByteRun.lean ====
section
/-! An accepted SEND_BYTE on the line (spec/40_serial_transmitter.md rules R100, R108, R110). -/

namespace Sys2Proof

open Machine

/-- Settles O47: the acceptance step drives the start bit, and the frame that it begins is the whole
run, since a SEND_BYTE has no byte to follow. -/
theorem sendByteSendsItsFrame : Obligations.SendByteSendsItsFrame := by
  intro s d hp hv hno hd
  obtain ⟨u, hrun, hu⟩ := (standsAt_advance_of_accept hno hp hv hd).busyRun_frame
  have hidle := hu.advance_finishRequest rfl
  have htrace : trace 11 s = frameTrace d := hrun.trace_eq
  have hend : advanceN 12 s = advance u := hrun.advanceN_succ_eq
  rw [htrace, hend]
  exact ⟨rfl, traceTicks_frameTrace d, hrun.busy_advanceN,
    busy_of_idle (congrArg Block.phase hidle.block), congrArg Block.tx hidle.block,
    congrArg Block.illegal hidle.block, congrArg Block.buf hidle.block⟩

end Sys2Proof
end

