-- ==== Sys2Proof/Proofs/StepRelation.lean ====
section
/-! The step relation of spec/40_serial_transmitter.md rule R107: the blocks it allows, as a list of
one or two, and its agreement with the step function. -/

namespace Sys2Proof.Machine

/-! ### The successors of a block -/

/-- The block after the acceptance of a request (R100, R130). -/
def acceptedBlock (i : Instr) (x : Block) : Block :=
  match i with
  | .sendByte d => slotBlock { x with buf := { x.buf with b0 := d }, nbytes := .one } 0 0
  | .setMotor m v => slotBlock { x with buf := command m v, nbytes := .four } 0 0

/-- The block after the word on the request port is accepted or refused (R101). -/
def offeredBlock (w : RequestWord) (x : Block) : Block :=
  match decode w with
  | .ok i => acceptedBlock i x
  | .error _ => { x with illegal := true }

/-- The blocks that may follow at the end of a frame (R103). -/
def frameEndSuccessors (x : Block) : List Block :=
  if x.bidx.val + 1 = x.nbytes.toNat then [{ x with phase := .idle, bidx := 0, slot := 0 }]
  else [slotBlock x (x.bidx + 1) 0, { x with phase := .gap }]

/-- The blocks that may follow `x` with the given values on the input ports (R107): the step
relation as a function (`blockStep_iff_mem_successors`). -/
def successors (r v : Bool) (w : RequestWord) (x : Block) : List Block :=
  if r then [Block.reset]
  else
    match x.phase with
    | .idle => if v then [offeredBlock w x] else [x]
    | .frame =>
      if x.slot.val < 10 then [slotBlock x x.bidx (x.slot + 1)] else frameEndSuccessors x
    | .gap => [x, slotBlock x (x.bidx + 1) 0]

section

variable {v : Bool} {w : RequestWord} {x : Block}

theorem successors_of_reset : successors true v w x = [Block.reset] := rfl

theorem successors_of_nextSlot (hp : x.phase = .frame) (hs : x.slot.val < 10) :
    successors false v w x = [slotBlock x x.bidx (x.slot + 1)] := by
  simp [successors, hp, hs]

theorem successors_of_lastFrame (hp : x.phase = .frame) (hs : x.slot = 10)
    (hlast : x.bidx.val + 1 = x.nbytes.toNat) :
    successors false v w x = [{ x with phase := .idle, bidx := 0, slot := 0 }] := by
  simp [successors, frameEndSuccessors, hp, hs, hlast]

theorem successors_of_moreFrames (hp : x.phase = .frame) (hs : x.slot = 10)
    (hmore : x.bidx.val + 1 ≠ x.nbytes.toNat) :
    successors false v w x = [slotBlock x (x.bidx + 1) 0, { x with phase := .gap }] := by
  simp [successors, frameEndSuccessors, hp, hs, hmore]

theorem successors_of_gap (hp : x.phase = .gap) :
    successors false v w x = [x, slotBlock x (x.bidx + 1) 0] := by
  simp [successors, hp]

theorem successors_of_idle (hp : x.phase = .idle) : successors false false w x = [x] := by
  simp [successors, hp]

theorem successors_of_offer (hp : x.phase = .idle) :
    successors false true w x = [offeredBlock w x] := by
  simp [successors, hp]

end

/-- The condition of one of the rules holds of a block and its input ports (R166, R107); the rule's
`successors_of_` lemma names the blocks that may follow. -/
theorem blockCondition_cases (r v : Bool) (x : Block) :
    r = true ∨
    (r = false ∧ x.phase = .idle ∧ v = false) ∨
    (r = false ∧ x.phase = .idle ∧ v = true) ∨
    (r = false ∧ x.phase = .frame ∧ x.slot.val < 10) ∨
    (r = false ∧ x.phase = .frame ∧ x.slot = 10 ∧ x.bidx.val + 1 = x.nbytes.toNat) ∨
    (r = false ∧ x.phase = .frame ∧ x.slot = 10 ∧ x.bidx.val + 1 ≠ x.nbytes.toNat) ∨
    (r = false ∧ x.phase = .gap) := by
  cases r with
  | true => exact .inl rfl
  | false =>
    cases hp : x.phase with
    | idle => cases v <;> simp
    | gap => simp
    | frame =>
      obtain hs | hs : x.slot.val < 10 ∨ x.slot = 10 := by omega
      · simp [hs]
      · simpa [hs] using eq_or_ne (x.bidx.val + 1) x.nbytes.toNat

/-! ### The step relation is membership in the list -/

/-- In a frame the step relation writes only the position and the level. -/
theorem slotBlock_of_frame {x : Block} (hp : x.phase = .frame) (i : Fin 4) (k : Fin 11) :
    slotBlock x i k = { x with bidx := i, slot := k, tx := frameLevel (x.buf.get i) k } := by
  rw [slotBlock, hp]

theorem eq_slot_succ {k next : Fin 11} (hk : k.val < 10) (hnext : next.val = k.val + 1) :
    next = k + 1 :=
  Fin.ext (hnext.trans (slot_succ_val k hk).symm)

theorem BlockStep.mem_successors {r v : Bool} {w : RequestWord} {x y : Block}
    (h : BlockStep r v w x y) : y ∈ successors r v w x := by
  cases h with
  | reset => simp [successors_of_reset]
  | acceptSendByte hp hd =>
    simp [successors_of_offer hp, offeredBlock, hd, acceptedBlock, slotBlock]
  | acceptSetMotor hp hd =>
    simp [successors_of_offer hp, offeredBlock, hd, acceptedBlock, slotBlock]
  | refuse hp hd => simp [successors_of_offer hp, offeredBlock, hd]
  | dataSlot k next hp hk hnext =>
    have hs : x.slot.val < 10 := by omega
    obtain rfl := eq_slot_succ hs (hnext.trans (by rw [hk]))
    rw [successors_of_nextSlot hp hs, List.mem_singleton, slotBlock_of_frame hp,
      frameLevel_data _ k _ hnext]
  | stopSlot next hp hk hnext =>
    have hs : x.slot.val < 10 := by omega
    obtain rfl := eq_slot_succ hs hnext
    rw [successors_of_nextSlot hp hs, List.mem_singleton, slotBlock_of_frame hp,
      frameLevel_stop _ _ (by omega)]
  | lastFrame hp hs hlast => simp [successors_of_lastFrame hp hs hlast]
  | nextFrame hp hs hmore => simp [successors_of_moreFrames hp hs hmore, slotBlock_of_frame hp]
  | gapBegins hp hs hmore => simp [successors_of_moreFrames hp hs hmore]
  | gapGoesOn hp => simp [successors_of_gap hp]
  | gapEnds hp => simp [successors_of_gap hp, slotBlock]
  | idle hp => simp [successors_of_idle hp]

theorem blockStep_offeredBlock {x : Block} (w : RequestWord) (hp : x.phase = .idle) :
    BlockStep false true w x (offeredBlock w x) := by
  rw [offeredBlock]
  split
  next i hd =>
    cases i with
    | sendByte d => exact .acceptSendByte hp hd
    | setMotor m s => exact .acceptSetMotor hp hd
  next hd => exact .refuse hp hd

theorem blockStep_nextSlot {v : Bool} {w : RequestWord} {x : Block} (hp : x.phase = .frame)
    (hs : x.slot.val < 10) : BlockStep false v w x (slotBlock x x.bidx (x.slot + 1)) := by
  have hnext := slot_succ_val x.slot hs
  rw [slotBlock_of_frame hp]
  by_cases hdata : x.slot.val < 8
  · rw [frameLevel_data _ ⟨x.slot.val, hdata⟩ _ hnext]
    exact .dataSlot ⟨x.slot.val, hdata⟩ _ hp rfl hnext
  · rw [frameLevel_stop _ _ (by omega)]
    exact .stopSlot _ hp (by omega) hnext

theorem blockStep_of_mem_successors {r v : Bool} {w : RequestWord} {x y : Block}
    (h : y ∈ successors r v w x) : BlockStep r v w x y := by
  obtain rfl | ⟨rfl, hp, rfl⟩ | ⟨rfl, hp, rfl⟩ | ⟨rfl, hp, hs⟩ | ⟨rfl, hp, hs, hlast⟩ |
    ⟨rfl, hp, hs, hmore⟩ | ⟨rfl, hp⟩ := blockCondition_cases r v x
  · rw [successors_of_reset, List.mem_singleton] at h
    exact h ▸ .reset
  · rw [successors_of_idle hp, List.mem_singleton] at h
    obtain rfl := h
    exact .idle hp
  · rw [successors_of_offer hp, List.mem_singleton] at h
    exact h ▸ blockStep_offeredBlock w hp
  · rw [successors_of_nextSlot hp hs, List.mem_singleton] at h
    exact h ▸ blockStep_nextSlot hp hs
  · rw [successors_of_lastFrame hp hs hlast, List.mem_singleton] at h
    exact h ▸ .lastFrame hp hs hlast
  · rw [successors_of_moreFrames hp hs hmore, List.mem_pair, slotBlock_of_frame hp] at h
    obtain rfl | rfl := h
    · exact .nextFrame hp hs hmore
    · exact .gapBegins hp hs hmore
  · rw [successors_of_gap hp, List.mem_pair] at h
    obtain rfl | rfl := h
    · exact .gapGoesOn hp
    · exact .gapEnds hp

theorem blockStep_iff_mem_successors {r v : Bool} {w : RequestWord} {x y : Block} :
    BlockStep r v w x y ↔ y ∈ successors r v w x :=
  ⟨BlockStep.mem_successors, blockStep_of_mem_successors⟩

/-! ### Where the relation leaves a choice -/

/-- The two places of R103 and R104 at which a block has a free choice. -/
def HasChoice (r : Bool) (x : Block) : Prop :=
  r = false ∧ (x.phase = .gap ∨
    (x.phase = .frame ∧ x.slot = 10 ∧ x.bidx.val + 1 ≠ x.nbytes.toNat))

theorem successors_of_hasChoice {r : Bool} {x : Block} (h : HasChoice r x) (v : Bool)
    (w : RequestWord) : ∃ y z, y ≠ z ∧ successors r v w x = [y, z] := by
  obtain ⟨rfl, hp | ⟨hp, hs, hmore⟩⟩ := h
  · refine ⟨_, _, fun heq => ?_, successors_of_gap hp⟩
    exact Phase.noConfusion (hp.symm.trans (congrArg Block.phase heq))
  · exact ⟨_, _, fun heq => Phase.noConfusion (congrArg Block.phase heq),
      successors_of_moreFrames hp hs hmore⟩

theorem successors_of_not_hasChoice {r : Bool} {x : Block} (h : ¬ HasChoice r x) (v : Bool)
    (w : RequestWord) : ∃ y, successors r v w x = [y] := by
  obtain rfl | ⟨rfl, hp, rfl⟩ | ⟨rfl, hp, rfl⟩ | ⟨rfl, hp, hs⟩ | ⟨rfl, hp, hs, hlast⟩ |
    ⟨rfl, hp, hs, hmore⟩ | ⟨rfl, hp⟩ := blockCondition_cases r v x
  · exact ⟨_, successors_of_reset⟩
  · exact ⟨_, successors_of_idle hp⟩
  · exact ⟨_, successors_of_offer hp⟩
  · exact ⟨_, successors_of_nextSlot hp hs⟩
  · exact ⟨_, successors_of_lastFrame hp hs hlast⟩
  · exact absurd ⟨rfl, .inr ⟨hp, hs, hmore⟩⟩ h
  · exact absurd ⟨rfl, .inl hp⟩ h

/-- Without a choice, two blocks that the relation allows are the same. -/
theorem BlockStep.eq_of_not_hasChoice {r v : Bool} {w : RequestWord} {x y z : Block}
    (hy : BlockStep r v w x y) (hz : BlockStep r v w x z) (h : ¬ HasChoice r x) : y = z := by
  obtain ⟨u, hu⟩ := successors_of_not_hasChoice h v w
  rw [blockStep_iff_mem_successors, hu, List.mem_singleton] at hy hz
  exact hy.trans hz.symm

/-! ### The step function takes a step of the relation -/

theorem beginRequest_block (i : Instr) (s : State) :
    (beginRequest (requestBytes i s) (requestCount i) s).block = acceptedBlock i s.block := by
  cases i <;> rfl

theorem endFrame_block_mem (gap : Nat) {v : Bool} {w : RequestWord} {s : State}
    (hp : s.phase = .frame) (hs : s.slot = 10) :
    (endFrame gap s).block ∈ successors false v w s.block := by
  obtain ⟨hlast, e⟩ | ⟨hmore, -, e⟩ | ⟨hmore, more, -, e⟩ := endFrame_cases gap s <;> rw [e]
  · rw [successors_of_lastFrame hp hs hlast]
    exact List.mem_singleton_self _
  · rw [successors_of_moreFrames hp hs hmore]
    exact List.mem_pair.2 (.inl rfl)
  · rw [successors_of_moreFrames hp hs hmore]
    exact List.mem_pair.2 (.inr rfl)

theorem gapStep_block_mem {v : Bool} {w : RequestWord} {s : State} (hp : s.phase = .gap) :
    (gapStep s).block ∈ successors false v w s.block := by
  rw [successors_of_gap hp]
  obtain ⟨more, -, e⟩ | ⟨-, e⟩ := gapStep_cases s <;> rw [e]
  · exact List.mem_pair.2 (.inl rfl)
  · exact List.mem_pair.2 (.inr rfl)

/-- Whatever the gap, the slot step takes a step of the relation. (It answers a next state or a
fault, so the state `u` that a refusal would leave plays no part.) -/
theorem blockStep_slotStep (gap : Nat) (s u : State) :
    BlockStep s.rst s.reqValid s.req s.block (stateAfter u (slotStep gap s)).block := by
  rw [blockStep_iff_mem_successors]
  obtain ⟨hr, e⟩ | ⟨hr, hp, hs, e⟩ | ⟨hr, hp, hs, e⟩ | ⟨hr, hp, e⟩ | ⟨hr, hp, hv, e⟩ |
    ⟨hr, hp, hv, i, t, hd, he, e⟩ | ⟨hr, hp, hv, _, hd, e⟩ := slotStep_cases gap s <;>
    rw [e, hr, stateAfter, hostMove_block]
  · exact List.mem_singleton_self _
  · rw [successors_of_nextSlot hp hs, List.mem_singleton, slotBlock_of_frame hp]
    rfl
  · exact endFrame_block_mem gap hp hs
  · exact gapStep_block_mem hp
  · rw [hv, successors_of_idle hp]
    exact List.mem_singleton_self _
  · rw [exec_eq_beginRequest, Host.Outcome.next.injEq] at he
    rw [hv, successors_of_offer hp, List.mem_singleton, offeredBlock, hd, ← he, beginRequest_block]
  · rw [hv, successors_of_offer hp, List.mem_singleton, offeredBlock, hd]
    rfl

/-! ### Every choice of the relation is some gap length -/

section

variable {gap more : Nat} {s u : State}

theorem slotStep_block_of_gapLeft (hr : s.rst = false) (hp : s.phase = .gap)
    (hleft : s.gapLeft = more + 1) : (stateAfter u (slotStep gap s)).block = s.block := by
  rw [slotStep_gap hr hp, gapStep_of_succ hleft, stateAfter, hostMove_block]
  rfl

theorem slotStep_block_of_no_gapLeft (hr : s.rst = false) (hp : s.phase = .gap)
    (hleft : s.gapLeft = 0) :
    (stateAfter u (slotStep gap s)).block = slotBlock s.block (s.block.bidx + 1) 0 := by
  rw [slotStep_gap hr hp, gapStep_of_zero hleft, stateAfter, hostMove_block, startNextFrame_block]

theorem slotStep_zero_block (hr : s.rst = false) (hp : s.phase = .frame) (hs : s.slot = 10)
    (hmore : s.bidx.val + 1 ≠ s.nbytes.toNat) :
    (stateAfter u (slotStep 0 s)).block = slotBlock s.block (s.block.bidx + 1) 0 := by
  rw [slotStep_endFrame hr hp hs, endFrame_next hmore, stateAfter, hostMove_block]
  rfl

theorem slotStep_succ_block (hr : s.rst = false) (hp : s.phase = .frame) (hs : s.slot = 10)
    (hmore : s.bidx.val + 1 ≠ s.nbytes.toNat) :
    (stateAfter u (slotStep (more + 1) s)).block = { s.block with phase := .gap } := by
  rw [slotStep_endFrame hr hp hs, endFrame_gap more hmore, stateAfter, hostMove_block]
  rfl

end

/-- At a choice each of the two blocks is named; elsewhere the relation allows one block only, and
the slot step takes it. -/
theorem exists_slotStep_of_blockStep {s : State} {y : Block}
    (h : BlockStep s.rst s.reqValid s.req s.block y) :
    ∃ gap left, y = (stateAfter s (slotStep gap (holdGap left s))).block := by
  by_cases hc : HasChoice s.rst s.block
  · rw [blockStep_iff_mem_successors] at h
    obtain ⟨hr, hp | ⟨hp, hs, hmore⟩⟩ := hc
    · rw [hr, successors_of_gap hp, List.mem_pair] at h
      obtain rfl | rfl := h
      · exact ⟨0, 1, (slotStep_block_of_gapLeft (s := holdGap 1 s) hr hp rfl).symm⟩
      · exact ⟨0, 0, (slotStep_block_of_no_gapLeft (s := holdGap 0 s) hr hp rfl).symm⟩
    · rw [hr, successors_of_moreFrames hp hs hmore, List.mem_pair] at h
      obtain rfl | rfl := h
      · exact ⟨0, 0, (slotStep_zero_block (s := holdGap 0 s) hr hp hs hmore).symm⟩
      · exact ⟨1, 0, (slotStep_succ_block (s := holdGap 0 s) hr hp hs hmore).symm⟩
  · exact ⟨0, 0, h.eq_of_not_hasChoice (blockStep_slotStep 0 (holdGap 0 s) s) hc⟩

end Sys2Proof.Machine

namespace Sys2Proof

open Machine

/-- Settles O40: the free gap length is one the slot step may be given, and what the relation allows
some length and some count of ticks left give. -/
theorem stepIsTheStepRelation : Obligations.StepIsTheStepRelation :=
  ⟨fun s => blockStep_slotStep _ s s, fun _ _ h => exists_slotStep_of_blockStep h⟩

/-- Settles O41: the list of successors has two entries at a choice and one elsewhere. -/
theorem choiceOnlyAtGaps : Obligations.ChoiceOnlyAtGaps := by
  intro r v w x
  simp only [blockStep_iff_mem_successors]
  refine ⟨?_, fun hc => ?_, fun hc => ?_⟩
  · by_cases hc : HasChoice r x
    · obtain ⟨y, z, -, hyz⟩ := successors_of_hasChoice hc v w
      exact ⟨y, by simp [hyz]⟩
    · obtain ⟨y, hy⟩ := successors_of_not_hasChoice hc v w
      exact ⟨y, by simp [hy]⟩
  · obtain ⟨y, z, hne, hyz⟩ := successors_of_hasChoice hc v w
    exact ⟨y, z, hne, fun u => by rw [hyz, List.mem_pair]⟩
  · obtain ⟨y, hy⟩ := successors_of_not_hasChoice hc v w
    exact ⟨y, fun u => by rw [hy, List.mem_singleton]⟩

end Sys2Proof
end

