-- ==== Sys2Proof/Proofs/MotorCommand.lean ====
section
/-! The arithmetic of the motor command (spec/41_motor_command.md rules R131 to R140): each function
of it as an integer expression of the rules, the bytes of a command, and the laws they give. -/

namespace Sys2Proof.Machine

/-! ### The rules' arithmetic on integers -/

theorem polarity_eq_ite (m : Motor) (s : Int) : polarity m s = if m = .a then -s else s := by
  cases m <;> rfl

/-- The clamp of R134. -/
theorem natCast_magnitude (v : Int) : (magnitude v : Int) = min |v| 100 := by
  simp [magnitude]

/-- The scaling of R135. -/
theorem natCast_deviceSpeed (mag : Nat) : (deviceSpeed mag : Int) = mag * 255 / 100 := by
  simp [deviceSpeed]

/-- A magnitude within the limit is the absolute value of the speed. -/
theorem magnitude_of_abs_eq {v : Int} {n : Nat} (hv : |v| = n) (hn : n ≤ 100) :
    magnitude v = n := by
  have hcast := natCast_magnitude v
  omega

/-- From the limit on, the magnitude is the limit (R134). -/
theorem magnitude_of_limit_le {v : Int} (hv : 100 ≤ |v|) : magnitude v = 100 := by
  have hcast := natCast_magnitude v
  omega

theorem direction_eq_rev_iff (v : Int) : direction v = .rev ↔ v < 0 := by
  simp [direction]

/-- Negation turns the direction of every speed but 0 (R133, R139). -/
theorem direction_neg_ne {s : Int} (hs : s ≠ 0) : direction (-s) ≠ direction s := by
  intro heq
  have hsign : -s < 0 ↔ s < 0 := by rw [← direction_eq_rev_iff, heq, direction_eq_rev_iff]
  omega

/-! ### The bytes of a command -/

section

variable (f : Motor → Dir → Byte) (m : Motor) (s : Int)

@[simp] theorem commandWith_b0 : (commandWith f m s).b0 = 0x80#8 := rfl

@[simp] theorem commandWith_b1 : (commandWith f m s).b1 = 0x00#8 := rfl

@[simp] theorem commandWith_b2 : (commandWith f m s).b2 = f m (direction (polarity m s)) := rfl

/-- The speed byte does not depend on the motor (R139). -/
@[simp] theorem commandWith_b3 :
    (commandWith f m s).b3 = speedByte (deviceSpeed (magnitude s)) := by
  rw [commandWith, magnitude_polarity]

/-- R134 to R136 in one expression of the speed. -/
theorem commandWith_b3_toInt :
    ((commandWith f m s).b3.toNat : Int) = min |s| 100 * 255 / 100 % 128 := by
  rw [commandWith_b3, speedByte_toNat, Int.natCast_mod, natCast_deviceSpeed, natCast_magnitude,
    Nat.cast_ofNat]

end

end Sys2Proof.Machine

namespace Sys2Proof

open Machine

/-- Settles O11: the integers of the statement are the values of the command function's parts, whose
ranges and whose mask are then facts of natural numbers. -/
theorem motorCommandArithmetic : Obligations.MotorCommandArithmetic := by
  intro f m s v mag ds hv hmag hds
  obtain rfl : v = polarity m s := hv.trans (polarity_eq_ite m s).symm
  obtain rfl : mag = magnitude s := by rw [hmag, ← natCast_magnitude, magnitude_polarity]
  obtain rfl : ds = deviceSpeed (magnitude s) := hds.trans (natCast_deviceSpeed _).symm
  have hmag_le := magnitude_le s
  have hds_le := deviceSpeed_le hmag_le
  have hmask : deviceSpeed (magnitude s) &&& 0x7F = deviceSpeed (magnitude s) % 128 :=
    Nat.and_two_pow_sub_one_eq_mod _ 7
  rw [commandWith_b3, speedByte_toNat, Int.toNat_natCast, hmask]
  refine ⟨?_, ?_, ?_, ?_, commandWith_b0 f m s, commandWith_b1 f m s, commandWith_b2 f m s, rfl,
    ?_, ?_⟩ <;> omega

/-- Settles O12: the two ranges are arithmetic on the speed byte's integer expression, and the two
speeds at the wrap have one magnitude each. -/
theorem speedByteWrapsAboveHalf : Obligations.SpeedByteWrapsAboveHalf := by
  intro s
  have habs := abs_nonneg s
  rw [command, commandWith_b3_toInt, commandWith_b3]
  refine ⟨fun hlow => ?_, fun hhigh hle => ?_, fun h50 => ?_, fun h51 => ?_⟩
  · rw [min_eq_left (by omega)]
    omega
  · rw [min_eq_left hle]
    omega
  · rw [magnitude_of_abs_eq (n := 50) h50 (by decide)]
    decide
  · rw [magnitude_of_abs_eq (n := 51) h51 (by decide)]
    decide

/-- Settles O13: the directions are those of `-s` for motor A and of `s` for motor B. -/
theorem motorsMirrorEachOther : Obligations.MotorsMirrorEachOther := by
  intro s
  refine ⟨?_, direction (-s), direction s, commandWith_b2 _ _ _, commandWith_b2 _ _ _,
    direction_neg_ne, ?_⟩
  · rw [command, command, commandWith_b3, commandWith_b3]
  · rintro rfl
    exact ⟨rfl, rfl⟩

/-- Settles O14. -/
theorem commandByteRanges : Obligations.CommandByteRanges := by
  intro m s
  rw [command, commandWith_b2, commandWith_b3, speedByte_toNat]
  refine ⟨rfl, rfl, Nat.le_of_lt_succ (Nat.mod_lt _ (by decide)), fun hs => ?_,
    Config.motorDirByte_valid.1 m _, _, rfl⟩
  rw [magnitude_of_limit_le hs]
  decide

end Sys2Proof
end

