-- ==== Sys2Proof/Proofs/BytesHeld.lean ====
section
/-! The bytes of a request in `buf` from its acceptance to its completion (spec/41_motor_command.md
rules R130, R143). -/

namespace Sys2Proof.Machine

/-! ### What the steps of a busy block leave -/

@[simp] theorem endFrame_buf (gap : Nat) (s : State) : (endFrame gap s).buf = s.buf := by
  obtain ⟨-, e⟩ | ⟨-, -, e⟩ | ⟨-, _, -, e⟩ := endFrame_cases gap s <;> simp [e]

@[simp] theorem endFrame_nbytes (gap : Nat) (s : State) : (endFrame gap s).nbytes = s.nbytes := by
  obtain ⟨-, e⟩ | ⟨-, -, e⟩ | ⟨-, _, -, e⟩ := endFrame_cases gap s <;> simp [e]

@[simp] theorem gapStep_buf (s : State) : (gapStep s).buf = s.buf := by
  obtain ⟨_, -, e⟩ | ⟨-, e⟩ := gapStep_cases s <;> simp [e]

@[simp] theorem gapStep_nbytes (s : State) : (gapStep s).nbytes = s.nbytes := by
  obtain ⟨_, -, e⟩ | ⟨-, e⟩ := gapStep_cases s <;> simp [e]

/-- A busy block that is not reset keeps the bytes and their number (R143). -/
theorem advance_keeps_bytes {s : State} (hr : s.rst = false) (hp : s.phase ≠ .idle) :
    (advance s).buf = s.buf ∧ (advance s).nbytes = s.nbytes := by
  cases hphase : s.phase with
  | idle => exact absurd hphase hp
  | gap => simp [advance_of_gap hr hphase]
  | frame =>
    obtain hs | hs := slot_lt_or_last s
    · simp [advance_of_nextSlot hr hphase hs]
    · simp [advance_of_endFrame hr hphase hs]

end Sys2Proof.Machine

namespace Sys2Proof

open Machine

/-- Settles O21: it is the definition of acceptance, written out field by field. -/
theorem setMotorBegins : Obligations.SetMotorBegins :=
  fun m v s => exec_eq_beginRequest (.setMotor m v) s

/-- Settles O32: acceptance begins the request with the command's bytes, and a busy step keeps them
in every state, so also in one whose request port has changed. -/
theorem bytesHeldUntilComplete : Obligations.BytesHeldUntilComplete := by
  refine ⟨fun s t m x h => ?_, fun s v w hr hp => ?_⟩
  · rw [exec_eq_beginRequest, Host.Outcome.next.injEq] at h
    rw [← h, beginRequest_buf, requestBytes]
  · exact advance_keeps_bytes (s := { s with reqValid := v, req := w }) hr hp

end Sys2Proof
end

