-- ==== Sys2Proof/Proofs/RequestFaults.lean ====
section
/-! The refused request, the machine's only fault (spec/60_exceptions.md rules R160 to R164): when a
step faults, with what, and what the block does after it. -/

namespace Sys2Proof.Machine

/-! ### When the next step consumes an illegal word -/

theorem requestKind_eq_illegal_iff (w : RequestWord) :
    requestKind w = .illegal ↔ ∃ e, decode w = .error e := by
  cases hd : decode w with
  | error e => simp [requestKind_of_error hd]
  | ok i => simp [requestKind_ne_illegal hd]

theorem consumes_eq_true_iff (s : State) :
    consumes s = true ↔ s.reqValid = true ∧ s.phase = .idle ∧ s.rst = false := by
  rw [consumes, Bool.and_eq_true, reqReady_eq_true_iff]

/-! ### The outcome of a step -/

/-- The consumption of an illegal word faults with the word and the refused block (R161). -/
theorem step_of_illegal {s : State} (hc : consumes s = true) (hk : requestKind s.req = .illegal) :
    step s = .fault (.illegalRequest s.req (hostMove true (refuseRequest s))) := by
  obtain ⟨hv, hp, hr⟩ := (consumes_eq_true_iff s).1 hc
  obtain ⟨e, hd⟩ := (requestKind_eq_illegal_iff s.req).1 hk
  exact slotStep_refuse hr hp hv hd

theorem step_eq_next_advance {s t : State} (h : step s = .next t) : step s = .next (advance s) := by
  rw [advance_of_next h, h]

/-- Every other step answers a next state: the refusal is the only rule that does not (R164). -/
theorem step_of_not_illegal {s : State}
    (h : ¬ (consumes s = true ∧ requestKind s.req = .illegal)) : step s = .next (advance s) := by
  obtain ⟨-, hs⟩ | ⟨-, -, -, hs⟩ | ⟨-, -, -, hs⟩ | ⟨-, -, hs⟩ | ⟨-, -, -, hs⟩ |
    ⟨-, -, -, _, _, -, -, hs⟩ | ⟨hr, hp, hv, e, hd, -⟩ :=
    slotStep_cases (Config.gapLength s.draws) s
  on_goal 7 => exact absurd ⟨consumes_of_offer hp hr hv, requestKind_of_error hd⟩ h
  all_goals exact step_eq_next_advance hs

/-- INVERSION of a fault: what was consumed, and the state the fault carries. -/
theorem step_eq_fault {s : State} {f : Fault} (h : step s = .fault f) :
    (consumes s = true ∧ requestKind s.req = .illegal) ∧
      f = .illegalRequest s.req (hostMove true (refuseRequest s)) := by
  by_cases hi : consumes s = true ∧ requestKind s.req = .illegal
  · obtain ⟨hc, hk⟩ := hi
    rw [step_of_illegal hc hk, Host.Outcome.fault.injEq] at h
    exact ⟨⟨hc, hk⟩, h.symm⟩
  · rw [step_of_not_illegal hi] at h
    cases h

/-- STATUS of a busy block after a refusal. -/
theorem status_eq_three {s : State} (hp : s.phase ≠ .idle) (hi : s.illegal = true) :
    status s = 0x03#8 := by
  simp [status, busy, hp, hi]

end Sys2Proof.Machine

namespace Sys2Proof

open Machine

/-- Settles O42: the outcome is decided by whether an illegal word is consumed. -/
theorem onlyIllegalRequestsFault : Obligations.OnlyIllegalRequestsFault := by
  intro s
  by_cases h : consumes s = true ∧ requestKind s.req = .illegal
  · obtain ⟨hc, hk⟩ := h
    simp [step_of_illegal hc hk, hc, hk]
  · simp [step_of_not_illegal h, h]

/-- Settles O25: the fault's state is the refused block after the host's move. -/
theorem illegalWordIsRefused : Obligations.IllegalWordIsRefused := by
  intro s e hp hr hv hd
  have hidle : (hostMove true (refuseRequest s)).phase = .idle := by simp [hp]
  refine ⟨consumes_of_offer hp hr hv, _, slotStep_refuse hr hp hv hd, ?_, ?_,
    interval_of_idle hidle, by simp [reqReady, hp]⟩
  · rw [hostMove_block]
    rfl
  · rw [hostMove_tick, refuseRequest_tick]

/-- Settles O26: the state the fault carries is idle with ILLEGAL set, so the legal word offered in
it is accepted, and acceptance leaves ILLEGAL. -/
theorem refusalDoesNotStopTheBlock : Obligations.RefusalDoesNotStopTheBlock := by
  rintro s t w hstep hr hv ⟨i, hd⟩
  obtain ⟨⟨hc, -⟩, hf⟩ := step_eq_fault hstep
  obtain ⟨-, hidle, -⟩ := (consumes_eq_true_iff s).1 hc
  obtain ⟨-, ht⟩ := Fault.illegalRequest.inj hf
  have hp : t.phase = .idle := by simp [ht, hidle]
  have hi : t.illegal = true := by simp [ht]
  exact ⟨_, slotStep_accept hr hp hv hd (exec_eq_beginRequest i t), by simp,
    status_eq_three (by simp) (by simp [hi])⟩

end Sys2Proof
end

