-- ==== Sys2Proof/Proofs/HostPromises.lean ====
section
/-! What a step does to the ports and to the host's coming moves: nothing but the host's own move. So
a promise about every coming move, no reset or legal words only, is kept by every step
(spec/60_exceptions.md rule R160). -/

namespace Sys2Proof.Machine

/-! ### A step leaves the ports to the host -/

theorem endFrame_keeps_ports (gap : Nat) (s : State) :
    (endFrame gap s).ports = s.ports ∧ (endFrame gap s).host = s.host := by
  obtain ⟨-, e⟩ | ⟨-, -, e⟩ | ⟨-, _, -, e⟩ := endFrame_cases gap s <;>
    simp [e, State.ports]

theorem gapStep_keeps_ports (s : State) :
    (gapStep s).ports = s.ports ∧ (gapStep s).host = s.host := by
  obtain ⟨_, -, e⟩ | ⟨-, e⟩ := gapStep_cases s <;> simp [e, State.ports]

/-- Every step is an update that leaves the ports and the host's list, and then the host's move. -/
theorem advance_eq_hostMove (s : State) :
    ∃ c t, advance s = hostMove c t ∧ t.ports = s.ports ∧ t.host = s.host := by
  obtain hr | ⟨hr, hp, hs⟩ | ⟨hr, hp, hs⟩ | ⟨hr, hp⟩ | ⟨hr, hp, hv⟩ | ⟨hr, hp, hv, i, hd⟩ |
    ⟨hr, hp, hv, e, hd⟩ := stepCondition_cases s
  · exact ⟨_, _, advance_of_reset hr, rfl, rfl⟩
  · exact ⟨_, _, advance_of_nextSlot hr hp hs, rfl, rfl⟩
  · exact ⟨_, _, advance_of_endFrame hr hp hs, endFrame_keeps_ports _ s⟩
  · exact ⟨_, _, advance_of_gap hr hp, gapStep_keeps_ports s⟩
  · exact ⟨_, _, advance_of_idle hr hp hv, rfl, rfl⟩
  · exact ⟨_, _, advance_of_accept hr hp hv hd, rfl, rfl⟩
  · exact ⟨_, _, advance_of_refuse hr hp hv hd, rfl, rfl⟩

/-! ### Promises about every coming move -/

theorem NoReset.advance {s : State} (h : NoReset s) : NoReset (advance s) := by
  obtain ⟨c, t, hadv, hports, hhost⟩ := advance_eq_hostMove s
  rw [hadv]
  exact (h.congr (congrArg HostInputs.rst hports) hhost).hostMove c

theorem LegalWords.congr {s t : State} (h : LegalWords s) (hports : t.ports = s.ports)
    (hhost : t.host = s.host) : LegalWords t := by
  have hv : t.reqValid = s.reqValid := congrArg HostInputs.reqValid hports
  have hw : t.req = s.req := congrArg HostInputs.req hports
  simpa [LegalWords, hv, hw, hhost] using h

/-- The host's move offers the next of its words, or with an empty list at most the same word. -/
theorem LegalWords.hostMove {s : State} (h : LegalWords s) (c : Bool) :
    LegalWords (hostMove c s) := by
  obtain ⟨hnow, hlater⟩ := h
  cases hh : s.host with
  | nil =>
    rw [hostMove_nil s c hh]
    exact ⟨fun hv => hnow (Bool.and_elim_left hv), hlater⟩
  | cons p rest =>
    rw [hh] at hlater
    rw [hostMove_cons s c p rest hh]
    exact ⟨hlater p List.mem_cons_self, fun q hq => hlater q (List.mem_cons_of_mem p hq)⟩

theorem LegalWords.advance {s : State} (h : LegalWords s) : LegalWords (advance s) := by
  obtain ⟨c, t, hadv, hports, hhost⟩ := advance_eq_hostMove s
  rw [hadv]
  exact (h.congr hports hhost).hostMove c

/-! ### Runs without a fault -/

theorem LegalWords.step_eq {s : State} (h : LegalWords s) : step s = .next (Machine.advance s) := by
  refine step_of_not_illegal fun ⟨hc, hk⟩ => ?_
  obtain ⟨hv, -, -⟩ := (consumes_eq_true_iff s).1 hc
  obtain ⟨i, hd⟩ := h.1 hv
  exact requestKind_ne_illegal hd hk

theorem run_succ_of_next {M : Host.Core} {s t : M.State} (n : Nat) (h : M.step s = .next t) :
    M.run (n + 1) s = M.run n t := by
  rw [Host.Core.run, h]

theorem LegalWords.run_eq {s : State} (h : LegalWords s) (n : Nat) :
    core.run n s = .next (advanceN n s) := by
  induction n generalizing s with
  | zero => rfl
  | succ n ih => exact (run_succ_of_next (M := core) n h.step_eq).trans (ih h.advance)

end Sys2Proof.Machine

namespace Sys2Proof

open Machine

/-- Settles O43, by induction on the length of the run: a step with legal words only does not fault
and leaves legal words only. -/
theorem legalRunsNeverFault : Obligations.LegalRunsNeverFault :=
  fun _ n h => ⟨_, h.run_eq n, rfl⟩

end Sys2Proof
end

