-- ==== Sys2Proof/Proofs/Completion.lean ====
section
/-! The block cannot hang (spec/60_exceptions.md rule R175, spec/70_reset_and_hazards.md rule R197):
a measure that every step of a busy block lowers. Gaps have no common bound, so it is lexicographic:
the frames and gaps still to come, then the steps left in the present one. -/

namespace Sys2Proof.Machine

/-! ### The measure -/

/-- How many frames and gaps of a four-byte request are still to end: a bound for a request of one
byte, which has no gap. -/
def stagesLeft (s : State) : Nat :=
  match s.phase with
  | .idle => 0
  | .frame => 2 * (3 - s.bidx.val) + 1
  | .gap => 2 * (3 - s.bidx.val)

/-- How many steps are left inside the present frame or gap. -/
def stepsLeft (s : State) : Nat :=
  match s.phase with
  | .idle => 0
  | .frame => 10 - s.slot.val
  | .gap => s.gapLeft

section

variable {s : State}

theorem stagesLeft_of_idle (hp : s.phase = .idle) : stagesLeft s = 0 := by
  rw [stagesLeft, hp]

theorem stagesLeft_of_frame (hp : s.phase = .frame) :
    stagesLeft s = 2 * (3 - s.bidx.val) + 1 := by
  rw [stagesLeft, hp]

theorem stagesLeft_of_gap (hp : s.phase = .gap) : stagesLeft s = 2 * (3 - s.bidx.val) := by
  rw [stagesLeft, hp]

theorem stepsLeft_of_frame (hp : s.phase = .frame) : stepsLeft s = 10 - s.slot.val := by
  rw [stepsLeft, hp]

theorem stepsLeft_of_gap (hp : s.phase = .gap) : stepsLeft s = s.gapLeft := by
  rw [stepsLeft, hp]

end

/-- The measure is lower in `t` than in `s`. -/
def NearerIdle (t s : State) : Prop :=
  Prod.Lex (· < ·) (· < ·) (stagesLeft t, stepsLeft t) (stagesLeft s, stepsLeft s)

theorem nearerIdle_wellFounded : WellFounded NearerIdle :=
  InvImage.wf (fun s => (stagesLeft s, stepsLeft s)) (Prod.lex Nat.lt_wfRel Nat.lt_wfRel).wf

theorem NearerIdle.hostMove {s t : State} (h : NearerIdle t s) (c : Bool) :
    NearerIdle (hostMove c t) s := by
  have hstages : stagesLeft (Machine.hostMove c t) = stagesLeft t := by simp [stagesLeft]
  have hsteps : stepsLeft (Machine.hostMove c t) = stepsLeft t := by simp [stepsLeft]
  rwa [NearerIdle, hstages, hsteps]

theorem NearerIdle.of_stages {s t : State} (h : stagesLeft t < stagesLeft s) : NearerIdle t s :=
  .left _ _ h

theorem NearerIdle.of_steps {s t : State} (hstages : stagesLeft t = stagesLeft s)
    (hsteps : stepsLeft t < stepsLeft s) : NearerIdle t s :=
  Prod.lex_def.2 (.inr ⟨hstages, hsteps⟩)

/-! ### Every update of a busy block lowers the measure -/

section

variable {s : State}

theorem nearerIdle_nextSlot (hp : s.phase = .frame) (hs : s.slot.val < 10) :
    NearerIdle (nextSlot s) s := by
  have hp' : (nextSlot s).phase = .frame := hp
  refine .of_steps ?_ ?_
  · rw [stagesLeft_of_frame hp', stagesLeft_of_frame hp, nextSlot_bidx]
  · rw [stepsLeft_of_frame hp', stepsLeft_of_frame hp, nextSlot_slot, slot_succ_val _ hs]
    omega

theorem nearerIdle_finishRequest (hp : s.phase = .frame) : NearerIdle (finishRequest s) s := by
  refine .of_stages ?_
  rw [stagesLeft_of_idle (finishRequest_phase s), stagesLeft_of_frame hp]
  exact Nat.succ_pos _

/-- A byte to follow costs a frame less and a gap less than this one and all after it. -/
theorem stagesLeft_startNextFrame (hb : s.bidx.val < 3) :
    stagesLeft (startNextFrame s) < 2 * (3 - s.bidx.val) := by
  rw [stagesLeft_of_frame (startNextFrame_phase s), startNextFrame_bidx, bidx_succ_val _ hb]
  omega

theorem nearerIdle_endFrame (gap : Nat) (h : StateInv s) (hp : s.phase = .frame) :
    NearerIdle (endFrame gap s) s := by
  obtain ⟨-, e⟩ | ⟨hmore, -, e⟩ | ⟨hmore, more, -, e⟩ := endFrame_cases gap s <;> rw [e]
  · exact nearerIdle_finishRequest hp
  · refine .of_stages ?_
    obtain ⟨-, hb⟩ := h.command_of_more hp hmore
    rw [stagesLeft_of_frame hp]
    exact (stagesLeft_startNextFrame (s := noteDraw s) hb).trans (Nat.lt_succ_self _)
  · refine .of_stages ?_
    rw [stagesLeft_of_gap (enterGap_phase _ more), stagesLeft_of_frame hp]
    exact Nat.lt_succ_self _

theorem nearerIdle_gapStep (h : StateInv s) (hp : s.phase = .gap) : NearerIdle (gapStep s) s := by
  obtain ⟨more, hleft, e⟩ | ⟨-, e⟩ := gapStep_cases s <;> rw [e]
  · have hp' : (holdGap more s).phase = .gap := hp
    refine .of_steps ?_ ?_
    · rw [stagesLeft_of_gap hp', stagesLeft_of_gap hp, holdGap_bidx]
    · rw [stepsLeft_of_gap hp', stepsLeft_of_gap hp, holdGap_gapLeft, hleft]
      exact Nat.lt_succ_self more
  · refine .of_stages ?_
    obtain ⟨-, -, -, hb⟩ := h.gap_form hp
    rw [stagesLeft_of_gap hp]
    exact stagesLeft_startNextFrame hb

end

/-- Every step of a busy block that is not reset brings it nearer to IDLE. -/
theorem StateInv.nearerIdle_advance {s : State} (h : StateInv s) (hr : s.rst = false)
    (hp : s.phase ≠ .idle) : NearerIdle (Machine.advance s) s := by
  cases hphase : s.phase with
  | idle => exact absurd hphase hp
  | gap =>
    rw [advance_of_gap hr hphase]
    exact (nearerIdle_gapStep h hphase).hostMove false
  | frame =>
    obtain hs | hs := slot_lt_or_last s
    · rw [advance_of_nextSlot hr hphase hs]
      exact (nearerIdle_nextSlot hphase hs).hostMove false
    · rw [advance_of_endFrame hr hphase hs]
      exact (nearerIdle_endFrame _ h hphase).hostMove false

end Sys2Proof.Machine

namespace Sys2Proof

open Machine

/-- Settles O45, by induction on the measure: a busy block's next state is nearer to IDLE, meets the
invariants and has no reset to come. -/
theorem everyRequestCompletes : Obligations.EveryRequestCompletes := by
  intro s
  induction s using nearerIdle_wellFounded.induction with
  | h s ih =>
    intro hinv hno
    by_cases hp : s.phase = .idle
    · exact ⟨0, hp⟩
    · obtain ⟨n, hn⟩ := ih _ (hinv.nearerIdle_advance hno.1 hp) hinv.advance hno.advance
      exact ⟨n + 1, hn⟩

end Sys2Proof
end

