-- ==== Sys2Proof/Proofs/ResetStep.lean ====
section
/-! The reset step and what follows it (spec/70_reset_and_hazards.md rules R180 to R184): the
block's reset values from every state, and a line that stays at 1 while no word is offered. -/

namespace Sys2Proof.Machine

/-! ### The reset step -/

section

variable {s : State}

theorem advance_block_of_reset (hr : s.rst = true) : (advance s).block = Block.reset := by
  rw [advance_of_reset hr, hostMove_block]
  rfl

theorem advance_tick_of_reset (hr : s.rst = true) : (advance s).tick = 0 := by
  rw [advance_of_reset hr, hostMove_tick, resetBlock_tick]

theorem not_reqReady_of_reset (hr : s.rst = true) : reqReady s = false := by
  simp [reqReady, hr]

theorem not_consumes_of_reset (hr : s.rst = true) : consumes s = false := by
  rw [consumes, not_reqReady_of_reset hr, Bool.and_false]

theorem acceptedWord_of_not_consumes (hc : consumes s = false) : acceptedWord s = none := by
  simp [acceptedWord, hc]

end

/-! ### A host that offers nothing -/

/-- No word is offered, now or in the host's coming moves. -/
def NoOffer (s : State) : Prop :=
  s.reqValid = false ∧ ∀ p ∈ s.host, p.reqValid = false

theorem NoOffer.advance {s : State} (h : NoOffer s) : NoOffer (advance s) := by
  obtain ⟨hnow, hlater⟩ := h
  obtain ⟨c, t, hadv, hports, hhost⟩ := advance_eq_hostMove s
  have hv : t.reqValid = s.reqValid := congrArg HostInputs.reqValid hports
  rw [← hhost] at hlater
  rw [hadv]
  cases hh : t.host with
  | nil =>
    rw [hostMove_nil t c hh]
    exact ⟨by simp [hv, hnow], hlater⟩
  | cons p rest =>
    rw [hh] at hlater
    rw [hostMove_cons t c p rest hh]
    exact ⟨hlater p List.mem_cons_self, fun q hq => hlater q (List.mem_cons_of_mem p hq)⟩

/-- The block is idle with the line at 1. -/
def AtMark (s : State) : Prop := s.phase = .idle ∧ s.tx = true

/-- Nothing is offered, and the block is at its mark or is brought there by a reset. -/
structure Quiet (s : State) : Prop where
  noOffer : NoOffer s
  mark : s.rst = true ∨ AtMark s

namespace Quiet

variable {s : State}

theorem atMark_advance (h : Quiet s) : AtMark (Machine.advance s) := by
  cases hr : s.rst with
  | true => simp [AtMark, advance_of_reset hr]
  | false =>
    obtain ⟨hp, htx⟩ : AtMark s := h.mark.resolve_left (by simp [hr])
    simp [AtMark, advance_of_idle hr hp h.noOffer.1, hp, htx]

theorem advance (h : Quiet s) : Quiet (advance s) :=
  ⟨h.noOffer.advance, .inr h.atMark_advance⟩

theorem trace_eq (h : Quiet s) (n : Nat) : trace n s = List.replicate n .mark := by
  induction n generalizing s with
  | zero => rfl
  | succ n ih =>
    rw [trace_succ, interval_of_idle h.atMark_advance.1, ih h.advance, List.replicate_succ]

theorem atMark_advanceN_succ (h : Quiet s) (n : Nat) : AtMark (advanceN (n + 1) s) := by
  induction n generalizing s with
  | zero => exact h.atMark_advance
  | succ n ih => exact ih h.advance

end Quiet

end Sys2Proof.Machine

namespace Sys2Proof

open Machine

/-- Settles O17: reset is the first condition that the step tests, and `req_ready` is 0 under it. -/
theorem resetStepFromAnyState : Obligations.ResetStepFromAnyState := by
  intro s hr
  have hc := not_consumes_of_reset hr
  exact ⟨⟨_, step_eq_next_advance (slotStep_reset hr), advance_block_of_reset hr,
    advance_tick_of_reset hr⟩, not_reqReady_of_reset hr, hc, acceptedWord_of_not_consumes hc⟩

/-- Settles O39: the power-up state is one of those that a reset step applies in. -/
theorem powerUpResetLaunches : Obligations.PowerUpResetLaunches :=
  ⟨advance_block_of_reset rfl, advance_tick_of_reset rfl, .reset rfl⟩

/-- Settles O19: the first step brings the block to its mark, and without an offer every later step
leaves it there, a further reset among them. -/
theorem resetCutsRequestShort : Obligations.ResetCutsRequestShort := by
  intro s n hr hv hhost
  have hquiet : Quiet s := ⟨⟨hv, hhost⟩, .inl hr⟩
  refine ⟨hquiet.trace_eq n, fun hn => ?_⟩
  obtain ⟨m, rfl⟩ := Nat.exists_eq_add_one.2 hn
  exact (hquiet.atMark_advanceN_succ m).2

end Sys2Proof
end

