-- ==== Sys2Proof/Proofs/DefaultHost.lean ====
section
/-! The host of an empty list (spec/70_reset_and_hazards.md rules R185, R186, R196, log 1), and the
end of a run in which it offers one SEND_BYTE (R195). -/

namespace Sys2Proof.Machine

/-! ### The host's move knows whether a word was consumed -/

/-- Every step is an update that leaves the ports to the host, and then the host's move after a word
that was consumed or not. -/
theorem advance_eq_hostMove_consumes (s : State) :
    ∃ t, advance s = hostMove (consumes s) t ∧ t.ports = s.ports ∧ t.host = s.host := by
  obtain hr | ⟨hr, hp, hs⟩ | ⟨hr, hp, hs⟩ | ⟨hr, hp⟩ | ⟨hr, hp, hv⟩ | ⟨hr, hp, hv, i, hd⟩ |
    ⟨hr, hp, hv, e, hd⟩ := stepCondition_cases s
  · rw [not_consumes_of_reset hr]
    exact ⟨_, advance_of_reset hr, rfl, rfl⟩
  · rw [not_consumes_of_busy (by simp [hp])]
    exact ⟨_, advance_of_nextSlot hr hp hs, rfl, rfl⟩
  · rw [not_consumes_of_busy (by simp [hp])]
    exact ⟨_, advance_of_endFrame hr hp hs, endFrame_keeps_ports _ s⟩
  · rw [not_consumes_of_busy (by simp [hp])]
    exact ⟨_, advance_of_gap hr hp, gapStep_keeps_ports s⟩
  · rw [consumes, hv, Bool.false_and]
    exact ⟨_, advance_of_idle hr hp hv, rfl, rfl⟩
  · rw [consumes_of_offer hp hr hv]
    exact ⟨_, advance_of_accept hr hp hv hd, rfl, rfl⟩
  · rw [consumes_of_offer hp hr hv]
    exact ⟨_, advance_of_refuse hr hp hv hd, rfl, rfl⟩

/-- The ports after a step, where the host has no moves listed (log 1). -/
theorem advance_ports_of_no_moves {s : State} (hh : s.host = []) :
    (advance s).ports = ⟨false, s.reqValid && !consumes s, s.req⟩ := by
  obtain ⟨t, hadv, hports, hhost⟩ := advance_eq_hostMove_consumes s
  have hv : t.reqValid = s.reqValid := congrArg HostInputs.reqValid hports
  have hw : t.req = s.req := congrArg HostInputs.req hports
  rw [hadv, hostMove_nil t _ (hhost.trans hh), ← hv, ← hw]
  rfl

/-! ### The words accepted in a run -/

theorem acceptedWords_succ (n : Nat) (s : State) :
    acceptedWords (n + 1) s = (acceptedWord s).toList ++ acceptedWords n (advance s) := rfl

theorem acceptedWord_of_busy {s : State} (hb : busy s = true) : acceptedWord s = none :=
  acceptedWord_of_not_consumes (not_consumes_of_busy (of_decide_eq_true hb))

/-- A block accepts nothing in the steps that it takes from busy states (R106). -/
theorem acceptedWords_of_busy {n : Nat} {s : State}
    (h : ∀ k, k < n → busy (advanceN k s) = true) : acceptedWords n s = [] := by
  induction n generalizing s with
  | zero => rfl
  | succ n ih =>
    have hnow : acceptedWord s = none := acceptedWord_of_busy (h 0 n.succ_pos)
    rw [acceptedWords_succ, hnow, ih fun k hk => h (k + 1) (Nat.succ_lt_succ hk)]
    rfl

theorem not_hasEnded_of_busy {words : List RequestWord} {n : Nat} {s : State}
    (hb : busy (advanceN n s) = true) : ¬ hasEnded words n s :=
  fun h => of_decide_eq_true hb h.2

end Sys2Proof.Machine

namespace Sys2Proof

open Machine

/-- Settles O46: the three duties are read off the ports after the step. -/
theorem defaultHostKeepsItsDuties : Obligations.DefaultHostKeepsItsDuties := by
  intro s hh
  have hports := advance_ports_of_no_moves hh
  have hrst : (advance s).rst = false := congrArg HostInputs.rst hports
  have hvalid : (advance s).reqValid = (s.reqValid && !consumes s) :=
    congrArg HostInputs.reqValid hports
  have hreq : (advance s).req = s.req := congrArg HostInputs.req hports
  refine ⟨fun hv hc => ⟨?_, hreq⟩, fun hc => ?_, hrst⟩
  · rw [hvalid, hv, hc]
    rfl
  · rw [hvalid, hc, Bool.not_true, Bool.and_false]

/-- Settles O49: the first step accepts the word and the eleven busy states after it (O47) accept
none, so the run has not ended in any of them, and the twelfth state is idle. -/
theorem sendByteRunEnds : Obligations.SendByteRunEnds := by
  intro s d hp hv hr hh hd
  have hno : NoReset s := ⟨hr, by simp [hh]⟩
  obtain ⟨-, -, hbusy, hend, -⟩ := sendByteSendsItsFrame s d hp hv hno hd
  have hfirst : acceptedWord s = some s.req :=
    acceptedWord_of_decode (consumes_of_offer hp hr hv) hd
  have hrest : acceptedWords 11 (advance s) = [] :=
    acceptedWords_of_busy fun k hk => hbusy (k + 1) (by omega) (by omega)
  refine ⟨⟨?_, of_not_not (of_decide_eq_false hend)⟩, fun k hk hended => ?_⟩
  · rw [acceptedWords_succ, hfirst, hrest]
    rfl
  · cases k with
    | zero => exact List.cons_ne_nil _ _ hended.1.symm
    | succ k => exact not_hasEnded_of_busy (hbusy (k + 1) (by omega) (by omega)) hended

end Sys2Proof
end

