-- ==== Sys2Proof/Proofs/ClockEdges.lean ====
section
/-! One rising edge of `clk` in the timed refinement (spec/70_reset_and_hazards.md rule R192): by
its conditions, whether it counts or takes the slot-model step, and what it does to the counter. -/

namespace Sys2Proof.Machine

/-! ### One edge, by the rule that applies -/

/-- The counter is cleared after a step whether it answers a next state or refuses a word. -/
theorem stateAfter_clearTickAfter_step (s : State) :
    stateAfter s (clearTickAfter (step s)) = clearTick (advance s) :=
  stateAfter_clearTickAfter (onlyIllegalRequestsFault s).1

section

variable {s : State}

theorem clkAdvance_of_reset (hr : s.rst = true) : clkAdvance s = advance s := by
  simp [clkAdvance, clkStep, hr, advance]

theorem clkAdvance_of_count (hr : s.rst = false) (hp : s.phase = .frame) (ht : s.tick.val < 9) :
    clkAdvance s = hostMove false (countTick s) := by
  simp [clkAdvance, clkStep, hr, hp, ht, stateAfter]

theorem clkAdvance_of_slot_end (hr : s.rst = false) (hp : s.phase = .frame)
    (ht : s.tick.val = 9) : clkAdvance s = clearTick (advance s) := by
  simp [clkAdvance, clkStep, hr, hp, ht, stateAfter_clearTickAfter_step]

theorem clkAdvance_of_gap (hr : s.rst = false) (hp : s.phase = .gap) :
    clkAdvance s = advance s := by
  simp [clkAdvance, clkStep, hr, hp, advance]

theorem clkAdvance_of_idle (hr : s.rst = false) (hp : s.phase = .idle) (hv : s.reqValid = false) :
    clkAdvance s = advance s := by
  simp [clkAdvance, clkStep, hr, hp, hv, advance]

theorem clkAdvance_of_offer (hr : s.rst = false) (hp : s.phase = .idle) (hv : s.reqValid = true) :
    clkAdvance s = clearTick (advance s) := by
  simp [clkAdvance, clkStep, hr, hp, hv, stateAfter_clearTickAfter_step]

end

/-- INVERSION: an edge outside a frame, or under reset, takes the slot-model step, and clears the
counter after it where a word is consumed. -/
theorem clkAdvance_cases_of_not_frame {s : State} (h : s.rst = true ∨ s.phase ≠ .frame) :
    (consumes s = true ∧ clkAdvance s = clearTick (advance s)) ∨
    (consumes s = false ∧ clkAdvance s = advance s) := by
  cases hr : s.rst with
  | true => exact .inr ⟨not_consumes_of_reset hr, clkAdvance_of_reset hr⟩
  | false =>
    cases hp : s.phase with
    | frame => simp [hr, hp] at h
    | gap => exact .inr ⟨not_consumes_of_busy (by simp [hp]), clkAdvance_of_gap hr hp⟩
    | idle =>
      cases hv : s.reqValid with
      | true => exact .inl ⟨consumes_of_offer hp hr hv, clkAdvance_of_offer hr hp hv⟩
      | false => exact .inr ⟨by simp [consumes, hv], clkAdvance_of_idle hr hp hv⟩

theorem clearTick_block (s : State) : (clearTick s).block = s.block := rfl

/-! ### The counter outside a frame -/

@[simp] theorem endFrame_tick (gap : Nat) (s : State) : (endFrame gap s).tick = s.tick := by
  obtain ⟨-, e⟩ | ⟨-, -, e⟩ | ⟨-, _, -, e⟩ := endFrame_cases gap s <;> simp [e]

@[simp] theorem gapStep_tick (s : State) : (gapStep s).tick = s.tick := by
  obtain ⟨_, -, e⟩ | ⟨-, e⟩ := gapStep_cases s <;> simp [e]

/-- No slot-model step but a reset writes the counter (R99). -/
theorem advance_tick {s : State} (hr : s.rst = false) : (advance s).tick = s.tick := by
  obtain hr' | ⟨-, hp, hs⟩ | ⟨-, hp, hs⟩ | ⟨-, hp⟩ | ⟨-, hp, hv⟩ | ⟨-, hp, hv, i, hd⟩ |
    ⟨-, hp, hv, e, hd⟩ := stepCondition_cases s
  · exact absurd hr' (by simp [hr])
  · simp [advance_of_nextSlot hr hp hs]
  · simp [advance_of_endFrame hr hp hs]
  · simp [advance_of_gap hr hp]
  · simp [advance_of_idle hr hp hv]
  · simp [advance_of_accept hr hp hv hd]
  · simp [advance_of_refuse hr hp hv hd]

theorem advance_tick_eq_zero {s : State} (ht : s.tick = 0) : (advance s).tick = 0 := by
  cases hr : s.rst with
  | true => exact advance_tick_of_reset hr
  | false => exact (advance_tick hr).trans ht

end Sys2Proof.Machine

namespace Sys2Proof

open Machine

/-- Settles O51: the edge takes the step, and clears the counter after it if a word is consumed. -/
theorem otherEdgesAreSteps : Obligations.OtherEdgesAreSteps := by
  intro s h
  obtain ⟨-, e⟩ | ⟨hc, e⟩ := clkAdvance_cases_of_not_frame h <;> rw [e]
  · exact ⟨clearTick_block _, fun _ => clearTick_tick _, fun _ => clearTick_tick _⟩
  · exact ⟨rfl, advance_tick_of_reset, fun hc' => absurd (hc.symm.trans hc') Bool.false_ne_true⟩

/-- Settles O52: an edge inside a slot stays in the frame, the edge at its end and one that consumes
a word clear the counter, and every other one takes a step, which leaves it at 0 or resets it. -/
theorem clockKeepsTickInvariant : Obligations.ClockKeepsTickInvariant := by
  intro s hinv hout
  by_cases h : s.rst = true ∨ s.phase ≠ .frame
  · obtain ⟨-, e⟩ | ⟨-, e⟩ := clkAdvance_cases_of_not_frame h <;> rw [e]
    · exact clearTick_tick _
    · exact h.elim advance_tick_of_reset fun hp => advance_tick_eq_zero (hinv hp)
  · obtain ⟨hr, hp⟩ : s.rst = false ∧ s.phase = .frame := by simpa using h
    obtain ht | ht : s.tick.val < 9 ∨ s.tick.val = 9 := by omega
    · exact absurd (by simp [clkAdvance_of_count hr hp ht, hp]) hout
    · rw [clkAdvance_of_slot_end hr hp ht, clearTick_tick]

end Sys2Proof
end

