-- ==== Sys2Proof/Proofs/TimedFrames.lean ====
section
/-! Frames in the timed refinement (spec/70_reset_and_hazards.md rules R191, R192): a slot lasts ten
ticks at its level, and the edge after them takes the slot-model step. -/

namespace Sys2Proof.Machine

/-! ### A run of clock edges -/

/-- The block goes from `s` to `u` in some edges, and the ticks after them have the levels `l`. -/
inductive ClkRun : State → List Level → State → Prop where
  | nil (s : State) : ClkRun s [] s
  | cons {s u : State} {l : List Level} : ClkRun (clkAdvance s) l u →
      ClkRun s ((clkAdvance s).tx :: l) u

namespace ClkRun

variable {s u v : State} {l r : List Level}

theorem edge (s : State) : ClkRun s [(clkAdvance s).tx] (clkAdvance s) := .cons (.nil _)

theorem append (h : ClkRun s l u) (h' : ClkRun u r v) : ClkRun s (l ++ r) v := by
  induction h with
  | nil => exact h'
  | cons _ ih => exact .cons (ih h')

theorem clkLevels_eq (h : ClkRun s l u) : clkLevels l.length s = l := by
  induction h with
  | nil => rfl
  | cons _ ih => exact congrArg _ ih

theorem clkAdvanceN_eq (h : ClkRun s l u) : clkAdvanceN l.length s = u := by
  induction h with
  | nil => rfl
  | cons _ ih => exact ih

theorem clkAdvanceN_succ_eq (h : ClkRun s l u) : clkAdvanceN (l.length + 1) s = clkAdvance u := by
  rw [← (h.append (.edge u)).clkAdvanceN_eq, List.length_append]
  rfl

end ClkRun

/-! ### Where the block stands in a slot -/

/-- The block stands as given, in the tick `n` of its slot. -/
structure TicksAt (x : Block) (d n : Nat) (s : State) : Prop extends StandsAt x d s where
  tick : s.tick.val = n

theorem StandsAt.clearTick {x : Block} {d : Nat} {s : State} (h : StandsAt x d s) :
    TicksAt x d 0 (clearTick s) :=
  ⟨⟨h.noReset.congr rfl rfl, h.block, h.draws⟩, rfl⟩

theorem frame_toList_getElem (b : Byte) (k : Nat) (hk : k < (frame b).toList.length) :
    (frame b).toList[k] = frameLevel b ⟨k, hk⟩ := by
  simp [frame_toList]

namespace TicksAt

variable {x : Block} {i : Fin 4} {d n : Nat} {s : State}

theorem clkAdvance_count (h : TicksAt x d n s) (hp : x.phase = .frame) (hn : n < 9) :
    TicksAt x d (n + 1) (clkAdvance s) := by
  have hps : s.phase = .frame := (congrArg Block.phase h.block).trans hp
  have hts : s.tick.val < 9 := by rw [h.tick]; exact hn
  have hcount : StandsAt x d (countTick s) := ⟨h.noReset.congr rfl rfl, h.block, h.draws⟩
  rw [clkAdvance_of_count h.noReset.1 hps hts]
  refine ⟨hcount.hostMove false, ?_⟩
  rw [hostMove_tick, countTick_tick, Fin.val_add_one_of_lt (Fin.lt_def.mpr hts), h.tick]

theorem clkAdvance_slot_end (h : TicksAt x d 9 s) (hp : x.phase = .frame) :
    clkAdvance s = Machine.clearTick (advance s) :=
  clkAdvance_of_slot_end h.noReset.1 ((congrArg Block.phase h.block).trans hp) h.tick

/-- The edge at the end of a slot before the last begins the next one. -/
theorem clkAdvance_nextSlot {k : Nat} (hk : k + 1 < 11)
    (h : TicksAt (slotBlock x i ⟨k, Nat.lt_of_succ_lt hk⟩) d 9 s) :
    TicksAt (slotBlock x i ⟨k + 1, hk⟩) d 0 (clkAdvance s) := by
  have hnext := h.advance_nextSlot (Nat.lt_of_succ_lt_succ hk)
  have hslot : (⟨k, Nat.lt_of_succ_lt hk⟩ : Fin 11) + 1 = ⟨k + 1, hk⟩ :=
    Fin.ext (slot_succ_val _ (Nat.lt_of_succ_lt_succ hk))
  rw [h.clkAdvance_slot_end rfl, ← hslot]
  exact hnext.clearTick

/-- Inside a slot the edges only count, and the line keeps its level. -/
theorem clkRun_ticks (h : TicksAt x d 0 s) (hp : x.phase = .frame) (hn : n ≤ 9) :
    ∃ u, ClkRun s (List.replicate n x.tx) u ∧ TicksAt x d n u := by
  induction n with
  | zero => exact ⟨s, .nil s, h⟩
  | succ n ih =>
    obtain ⟨u, hrun, hu⟩ := ih (Nat.le_of_succ_le hn)
    have hnext := hu.clkAdvance_count hp hn
    have htx : (clkAdvance u).tx = x.tx := congrArg Block.tx hnext.block
    refine ⟨clkAdvance u, ?_, hnext⟩
    rw [List.replicate_succ']
    exact hrun.append (htx ▸ .edge u)

/-- The slot that an edge begins is on the line for ten ticks, the one after that edge included. -/
theorem clkRun_slot (h : TicksAt x d 0 (clkAdvance s)) (hp : x.phase = .frame) :
    ∃ u, ClkRun s (List.replicate 10 x.tx) u ∧ TicksAt x d 9 u := by
  obtain ⟨u, hrun, hu⟩ := h.clkRun_ticks hp (Nat.le_refl 9)
  have htx : (clkAdvance s).tx = x.tx := congrArg Block.tx h.block
  have hedge := ClkRun.cons hrun
  rw [htx] at hedge
  exact ⟨u, hedge, hu⟩

/-- From the edge that drives its start bit, a frame goes on the line slot by slot. -/
theorem clkRun_frame_take (h : TicksAt (slotBlock x i 0) d 0 (clkAdvance s)) (k : Nat)
    (hk : k < 11) :
    ∃ u, ClkRun s (((frame (x.buf.get i)).toList.take (k + 1)).flatMap (List.replicate 10)) u ∧
      TicksAt (slotBlock x i ⟨k, hk⟩) d 9 u := by
  induction k with
  | zero => exact h.clkRun_slot rfl
  | succ k ih =>
    obtain ⟨u, hrun, hu⟩ := ih (by omega)
    obtain ⟨v, hslot, hv⟩ := (clkAdvance_nextSlot hk hu).clkRun_slot rfl
    refine ⟨v, ?_, hv⟩
    rw [← List.take_append_getElem (by simpa using hk), frame_toList_getElem, List.flatMap_append,
      List.flatMap_singleton]
    exact hrun.append hslot

end TicksAt

/-! ### The slot-model step of a frame reads the block and the number of draws alone -/

theorem endFrame_block_congr (gap : Nat) {s t : State} (h : s.block = t.block) :
    (endFrame gap s).block = (endFrame gap t).block := by
  have hb : s.bidx = t.bidx := congrArg Block.bidx h
  have hn : s.nbytes = t.nbytes := congrArg Block.nbytes h
  obtain ⟨hlast, e⟩ | ⟨hmore, rfl, e⟩ | ⟨hmore, more, rfl, e⟩ := endFrame_cases gap s <;> rw [e]
  · rw [hb, hn] at hlast
    rw [endFrame_last gap hlast, finishRequest_block, finishRequest_block, h]
  · rw [hb, hn] at hmore
    rw [endFrame_next hmore]
    exact congrArg (fun x => slotBlock x (x.bidx + 1) 0) h
  · rw [hb, hn] at hmore
    rw [endFrame_gap more hmore]
    exact congrArg (fun x => { x with phase := .gap }) h

theorem StandsAt.advance_block_eq {x : Block} {d : Nat} {s t : State} (hs : StandsAt x d s)
    (ht : StandsAt x d t) (hp : x.phase = .frame) : (advance s).block = (advance t).block := by
  have hps : s.phase = .frame := (congrArg Block.phase hs.block).trans hp
  have hpt : t.phase = .frame := (congrArg Block.phase ht.block).trans hp
  have hblock : s.block = t.block := hs.block.trans ht.block.symm
  have hslot : s.slot = t.slot := congrArg Block.slot hblock
  obtain hlt | hlast := slot_lt_or_last s
  · rw [advance_of_nextSlot hs.noReset.1 hps hlt,
      advance_of_nextSlot ht.noReset.1 hpt (hslot ▸ hlt), hostMove_block, hostMove_block,
      nextSlot_block, nextSlot_block, hblock]
  · rw [advance_of_endFrame hs.noReset.1 hps hlast,
      advance_of_endFrame ht.noReset.1 hpt (hslot ▸ hlast), hostMove_block, hostMove_block,
      hs.draws, ht.draws, endFrame_block_congr _ hblock]

end Sys2Proof.Machine

namespace Sys2Proof

open Machine

/-- Settles O50: nine edges count, and the tenth takes the step of a state with the same block and
the same number of draws. -/
theorem tenTicksAreOneSlot : Obligations.TenTicksAreOneSlot := by
  intro s hp ht hno
  have hs : StandsAt s.block s.draws s := ⟨hno, rfl, rfl⟩
  have hticks : TicksAt s.block s.draws 0 s := ⟨hs, congrArg Fin.val ht⟩
  constructor
  · intro k hk
    obtain ⟨u, hrun, hu⟩ := hticks.clkRun_ticks hp (Nat.le_of_lt_succ hk)
    have hend := hrun.clkAdvanceN_eq
    rw [List.length_replicate] at hend
    rw [hend]
    exact ⟨hu.block, hu.tick⟩
  · obtain ⟨u, hrun, hu⟩ := hticks.clkRun_ticks hp (Nat.le_refl 9)
    have hend : clkAdvanceN 10 s = clkAdvance u := hrun.clkAdvanceN_succ_eq
    rw [hend, hu.clkAdvance_slot_end hp, clearTick_block, clearTick_tick]
    exact ⟨hu.toStandsAt.advance_block_eq hs hp, rfl⟩

/-- Settles O53: the acceptance edge drives the start bit and clears the counter, so each slot has
its ten ticks, and the edge after the last of them ends the request. -/
theorem timedSendByteLevels : Obligations.TimedSendByteLevels := by
  intro s d hp hv hno hd
  have hbegin := (standsAt_advance_of_accept hno hp hv hd).clearTick
  rw [← clkAdvance_of_offer hno.1 hp hv] at hbegin
  obtain ⟨u, hrun, hu⟩ := hbegin.clkRun_frame_take 10 (by decide)
  have hidle := hu.advance_finishRequest rfl
  have hlevels : clkLevels 110 s = _ := hrun.clkLevels_eq
  have hlast : clkAdvanceN 110 s = u := hrun.clkAdvanceN_eq
  have hend : clkAdvanceN 111 s = clkAdvance u := hrun.clkAdvanceN_succ_eq
  rw [hlast, hend, hu.clkAdvance_slot_end rfl]
  exact ⟨hlevels, congrArg Block.phase hu.block, congrArg Block.phase hidle.block⟩

end Sys2Proof
end
